-- ==== Sys2Proof/Word.lean ====
section
/-! DEFINITION. The word types of the engine (00_scope.md R8, R11, R12): everything here is a bit pattern that the
spec itself treats as bits. Field extraction, extension and byte order stand in Decode.lean and Machine/. -/

namespace Sys2Proof

/-- A 32-bit pattern: a register, the pc, a fetched word, a computed address (R12). -/
abbrev Word := BitVec 32

/-- A half-word: 16 bits (glossary). -/
abbrev Half := BitVec 16

/-- One byte of memory (R29). -/
abbrev Byte := BitVec 8

/-- A 5-bit register index (R14, R21). -/
abbrev RegIdx := BitVec 5

/-- A 5-bit shift amount, 0 to 31 (R66, R73). -/
abbrev Shamt := BitVec 5

/-- The 16-bit immediate as encoded (R66). -/
abbrev Imm16 := BitVec 16

/-- The 26-bit jump field `address` (R66). -/
abbrev Target26 := BitVec 26

/-- A 6-bit opcode or func (R66). -/
abbrev Code6 := BitVec 6

end Sys2Proof
end

