-- ==== Sys2Proof/Syntax.lean ====
section
/-! DEFINITION. The instructions: one constructor for each row of spec/opcode_table.json, and the `Program` artifact.
Every constructor carries EVERY field of its word, in the word's order (30_encoding.md R67), the fields its operation
ignores too (R81): the fault record holds the whole fetched word (10_state.md R32), so no bit may be lost. -/

namespace Sys2Proof

/-- The 29 instructions and the halt sentinel (00_scope.md R2). -/
inductive Instr where
  -- R format, shifts: read `rs`, write `rt` (R125, R126)
  | sll (rs rt rd : RegIdx) (shamt : Shamt)
  | srl (rs rt rd : RegIdx) (shamt : Shamt)
  -- R format, register jump (R141)
  | jr (rs rt rd : RegIdx) (shamt : Shamt)
  -- R format, register ALU (R116 to R124)
  | add (rs rt rd : RegIdx) (shamt : Shamt)
  | addu (rs rt rd : RegIdx) (shamt : Shamt)
  | sub (rs rt rd : RegIdx) (shamt : Shamt)
  | subu (rs rt rd : RegIdx) (shamt : Shamt)
  | and (rs rt rd : RegIdx) (shamt : Shamt)
  | or (rs rt rd : RegIdx) (shamt : Shamt)
  | nor (rs rt rd : RegIdx) (shamt : Shamt)
  | slt (rs rt rd : RegIdx) (shamt : Shamt)
  | sltu (rs rt rd : RegIdx) (shamt : Shamt)
  -- I format, branches (R142, R143)
  | beq (rs rt : RegIdx) (imm : Imm16)
  | bne (rs rt : RegIdx) (imm : Imm16)
  -- I format, immediate ALU (R131 to R137)
  | addi (rs rt : RegIdx) (imm : Imm16)
  | addiu (rs rt : RegIdx) (imm : Imm16)
  | slti (rs rt : RegIdx) (imm : Imm16)
  | sltiu (rs rt : RegIdx) (imm : Imm16)
  | andi (rs rt : RegIdx) (imm : Imm16)
  | ori (rs rt : RegIdx) (imm : Imm16)
  | lui (rs rt : RegIdx) (imm : Imm16)
  -- I format, loads and stores (R151 to R156)
  | lw (rs rt : RegIdx) (imm : Imm16)
  | lbu (rs rt : RegIdx) (imm : Imm16)
  | lhu (rs rt : RegIdx) (imm : Imm16)
  | sb (rs rt : RegIdx) (imm : Imm16)
  | sh (rs rt : RegIdx) (imm : Imm16)
  | sw (rs rt : RegIdx) (imm : Imm16)
  -- J format (R144, R145)
  | j (address : Target26)
  | jal (address : Target26)
  -- the sentinel word 0xFFFFFFFF (R82, R97)
  | halt
  deriving DecidableEq, Repr

/-- The operation tag of a mapped word (40_fetch_loop.md R91): the mnemonic without its operands. -/
inductive Op where
  | sll | srl | jr | add | addu | sub | subu | and | or | nor | slt | sltu
  | beq | bne | addi | addiu | slti | sltiu | andi | ori | lui
  | lw | lbu | lhu | sb | sh | sw | j | jal | halt
  deriving DecidableEq, Repr

/-- The tag of an instruction (R91). -/
def Instr.op : Instr → Op
  | .sll .. => .sll
  | .srl .. => .srl
  | .jr .. => .jr
  | .add .. => .add
  | .addu .. => .addu
  | .sub .. => .sub
  | .subu .. => .subu
  | .and .. => .and
  | .or .. => .or
  | .nor .. => .nor
  | .slt .. => .slt
  | .sltu .. => .sltu
  | .beq .. => .beq
  | .bne .. => .bne
  | .addi .. => .addi
  | .addiu .. => .addiu
  | .slti .. => .slti
  | .sltiu .. => .sltiu
  | .andi .. => .andi
  | .ori .. => .ori
  | .lui .. => .lui
  | .lw .. => .lw
  | .lbu .. => .lbu
  | .lhu .. => .lhu
  | .sb .. => .sb
  | .sh .. => .sh
  | .sw .. => .sw
  | .j .. => .j
  | .jal .. => .jal
  | .halt => .halt

/-- The artifact that `load` takes: "two ordered sequences of unsigned 32-bit words" (70_reset_and_hazards.md R194). -/
structure Program where
  instructions : List Word
  data : List Word
  deriving DecidableEq, Repr

end Sys2Proof
end

