-- ==== Sys2Proof/Decode.lean ====
section
/-! DEFINITION. Decoding and encoding (spec/30_encoding.md). The opcode and func numbers of R75 to R77 stand here and
nowhere else in the model (93_implementation_defined.md section 3): once in `decodeR` and `decode`, once more, written
from the same tables, in `encode`, and as match/mask pairs (R78) in `Op.mask` and `Op.pattern`.
PRESUMED (log entry 4, unsafe): all numbers but `add` = 0x20 are the spec's own supplement (D3). -/

namespace Sys2Proof

/-! ### Byte order (R40, R42): the most significant byte stands at the lowest address -/

/-- The word whose bytes, lowest address first, are `b0 b1 b2 b3` (R40). -/
def wordOfBytes (b0 b1 b2 b3 : Byte) : Word := b0 ++ b1 ++ b2 ++ b3

/-- The half-word whose bytes, lowest address first, are `b0 b1` (R41, DEDUCED by the spec; log entry 29). -/
def halfOfBytes (b0 b1 : Byte) : Half := b0 ++ b1

/-- The four bytes of a word, lowest address first (R40). -/
def bytesOfWord (v : Word) : List Byte :=
  [v.extractLsb' 24 8, v.extractLsb' 16 8, v.extractLsb' 8 8, v.extractLsb' 0 8]

/-- The two bytes of a half-word, lowest address first (R41). -/
def bytesOfHalf (v : Half) : List Byte :=
  [v.extractLsb' 8 8, v.extractLsb' 0 8]

/-! ### Fields (R66), extracted from every word alike -/

/-- `opcode` = w[31:26]. -/
def opcodeOf (w : Word) : Code6 := w.extractLsb' 26 6
/-- `rs` = w[25:21]. -/
def rsOf (w : Word) : RegIdx := w.extractLsb' 21 5
/-- `rt` = w[20:16]. -/
def rtOf (w : Word) : RegIdx := w.extractLsb' 16 5
/-- `rd` = w[15:11]. -/
def rdOf (w : Word) : RegIdx := w.extractLsb' 11 5
/-- `shamt` = w[10:6]. -/
def shamtOf (w : Word) : Shamt := w.extractLsb' 6 5
/-- `func` = w[5:0]. -/
def funcOf (w : Word) : Code6 := w.extractLsb' 0 6
/-- `imm16` = w[15:0]. -/
def immOf (w : Word) : Imm16 := w.extractLsb' 0 16
/-- `address` = w[25:0]. -/
def addressOf (w : Word) : Target26 := w.extractLsb' 0 26

/-! ### Decoding -/

/-- The halt sentinel (R8, R82). -/
def sentinel : Word := 0xFFFFFFFF#32

/-- Why bits are no instruction: the names under which the decoder rejects. -/
inductive DecodeError where
  /-- `opcode = 0` and this `func` selects no operation: an unmapped word (R79). -/
  | unmappedFunc (func : Code6)
  /-- This opcode selects no operation, and the word is not the sentinel: an unmapped word (R79). -/
  | unmappedOpcode (opcode : Code6)
  /-- The bytes given are not four: an instruction is one 32-bit word (R65). -/
  | notOneWord (bytes : Nat)
  deriving DecidableEq, Repr

/-- The R-format table (R75): `opcode = 0`, the operation chosen by `func`. -/
def decodeR (w : Word) : Except DecodeError Instr :=
  match funcOf w with
  | 0x00#6 => .ok (.sll (rsOf w) (rtOf w) (rdOf w) (shamtOf w))
  | 0x02#6 => .ok (.srl (rsOf w) (rtOf w) (rdOf w) (shamtOf w))
  | 0x08#6 => .ok (.jr (rsOf w) (rtOf w) (rdOf w) (shamtOf w))
  | 0x20#6 => .ok (.add (rsOf w) (rtOf w) (rdOf w) (shamtOf w))
  | 0x21#6 => .ok (.addu (rsOf w) (rtOf w) (rdOf w) (shamtOf w))
  | 0x22#6 => .ok (.sub (rsOf w) (rtOf w) (rdOf w) (shamtOf w))
  | 0x23#6 => .ok (.subu (rsOf w) (rtOf w) (rdOf w) (shamtOf w))
  | 0x24#6 => .ok (.and (rsOf w) (rtOf w) (rdOf w) (shamtOf w))
  | 0x25#6 => .ok (.or (rsOf w) (rtOf w) (rdOf w) (shamtOf w))
  | 0x27#6 => .ok (.nor (rsOf w) (rtOf w) (rdOf w) (shamtOf w))
  | 0x2A#6 => .ok (.slt (rsOf w) (rtOf w) (rdOf w) (shamtOf w))
  | 0x2B#6 => .ok (.sltu (rsOf w) (rtOf w) (rdOf w) (shamtOf w))
  | func => .error (.unmappedFunc func)

/-- The decoder block (40_fetch_loop.md R91), in the order of R74: the sentinel first, then by opcode, with the tables
of R75 (`decodeR`), R76 and R77. Dispatch reads opcode and func only (R81). -/
def decode (w : Word) : Except DecodeError Instr :=
  if w = sentinel then .ok .halt
  else match opcodeOf w with
  | 0x00#6 => decodeR w
  | 0x02#6 => .ok (.j (addressOf w))
  | 0x03#6 => .ok (.jal (addressOf w))
  | 0x04#6 => .ok (.beq (rsOf w) (rtOf w) (immOf w))
  | 0x05#6 => .ok (.bne (rsOf w) (rtOf w) (immOf w))
  | 0x08#6 => .ok (.addi (rsOf w) (rtOf w) (immOf w))
  | 0x09#6 => .ok (.addiu (rsOf w) (rtOf w) (immOf w))
  | 0x0A#6 => .ok (.slti (rsOf w) (rtOf w) (immOf w))
  | 0x0B#6 => .ok (.sltiu (rsOf w) (rtOf w) (immOf w))
  | 0x0C#6 => .ok (.andi (rsOf w) (rtOf w) (immOf w))
  | 0x0D#6 => .ok (.ori (rsOf w) (rtOf w) (immOf w))
  | 0x0F#6 => .ok (.lui (rsOf w) (rtOf w) (immOf w))
  | 0x23#6 => .ok (.lw (rsOf w) (rtOf w) (immOf w))
  | 0x24#6 => .ok (.lbu (rsOf w) (rtOf w) (immOf w))
  | 0x25#6 => .ok (.lhu (rsOf w) (rtOf w) (immOf w))
  | 0x28#6 => .ok (.sb (rsOf w) (rtOf w) (immOf w))
  | 0x29#6 => .ok (.sh (rsOf w) (rtOf w) (immOf w))
  | 0x2B#6 => .ok (.sw (rsOf w) (rtOf w) (immOf w))
  | opcode => .error (.unmappedOpcode opcode)

/-- Decoding of bytes as memory holds them, lowest address first (R42, R65): total on every list of bytes. -/
def decodeBytes : List Byte → Except DecodeError Instr
  | [b0, b1, b2, b3] => decode (wordOfBytes b0 b1 b2 b3)
  | bytes => .error (.notOneWord bytes.length)

/-! ### Encoding -/

/-- An R-format word with opcode 0 (R67). -/
def encodeR (rs rt rd : RegIdx) (shamt : Shamt) (func : Code6) : Word :=
  0x00#6 ++ rs ++ rt ++ rd ++ shamt ++ func

/-- An I-format word (R67). -/
def encodeI (opcode : Code6) (rs rt : RegIdx) (imm : Imm16) : Word := opcode ++ rs ++ rt ++ imm

/-- A J-format word (R67). -/
def encodeJ (opcode : Code6) (address : Target26) : Word := opcode ++ address

/-- The word of an instruction, written from the encodings of files 41 to 44. -/
def encode : Instr → Word
  | .sll rs rt rd shamt => encodeR rs rt rd shamt 0x00#6
  | .srl rs rt rd shamt => encodeR rs rt rd shamt 0x02#6
  | .jr rs rt rd shamt => encodeR rs rt rd shamt 0x08#6
  | .add rs rt rd shamt => encodeR rs rt rd shamt 0x20#6
  | .addu rs rt rd shamt => encodeR rs rt rd shamt 0x21#6
  | .sub rs rt rd shamt => encodeR rs rt rd shamt 0x22#6
  | .subu rs rt rd shamt => encodeR rs rt rd shamt 0x23#6
  | .and rs rt rd shamt => encodeR rs rt rd shamt 0x24#6
  | .or rs rt rd shamt => encodeR rs rt rd shamt 0x25#6
  | .nor rs rt rd shamt => encodeR rs rt rd shamt 0x27#6
  | .slt rs rt rd shamt => encodeR rs rt rd shamt 0x2A#6
  | .sltu rs rt rd shamt => encodeR rs rt rd shamt 0x2B#6
  | .beq rs rt imm => encodeI 0x04#6 rs rt imm
  | .bne rs rt imm => encodeI 0x05#6 rs rt imm
  | .addi rs rt imm => encodeI 0x08#6 rs rt imm
  | .addiu rs rt imm => encodeI 0x09#6 rs rt imm
  | .slti rs rt imm => encodeI 0x0A#6 rs rt imm
  | .sltiu rs rt imm => encodeI 0x0B#6 rs rt imm
  | .andi rs rt imm => encodeI 0x0C#6 rs rt imm
  | .ori rs rt imm => encodeI 0x0D#6 rs rt imm
  | .lui rs rt imm => encodeI 0x0F#6 rs rt imm
  | .lw rs rt imm => encodeI 0x23#6 rs rt imm
  | .lbu rs rt imm => encodeI 0x24#6 rs rt imm
  | .lhu rs rt imm => encodeI 0x25#6 rs rt imm
  | .sb rs rt imm => encodeI 0x28#6 rs rt imm
  | .sh rs rt imm => encodeI 0x29#6 rs rt imm
  | .sw rs rt imm => encodeI 0x2B#6 rs rt imm
  | .j address => encodeJ 0x02#6 address
  | .jal address => encodeJ 0x03#6 address
  | .halt => sentinel

/-- The bytes of an instruction as memory holds them. -/
def encodeBytes (i : Instr) : List Byte := bytesOfWord (encode i)

/-! ### The match/mask pairs of R78 -/

/-- The mask of an operation's row: opcode and func for the R format, the opcode alone for the I and J formats, the
whole word for the sentinel. -/
def Op.mask : Op → Word
  | .sll | .srl | .jr | .add | .addu | .sub | .subu | .and | .or | .nor | .slt | .sltu => 0xFC00003F#32
  | .beq | .bne | .addi | .addiu | .slti | .sltiu | .andi | .ori | .lui | .lw | .lbu | .lhu | .sb | .sh | .sw
  | .j | .jal => 0xFC000000#32
  | .halt => 0xFFFFFFFF#32

/-- The value a word has under the mask of its row. -/
def Op.pattern : Op → Word
  | .sll => 0x00000000#32
  | .srl => 0x00000002#32
  | .jr => 0x00000008#32
  | .add => 0x00000020#32
  | .addu => 0x00000021#32
  | .sub => 0x00000022#32
  | .subu => 0x00000023#32
  | .and => 0x00000024#32
  | .or => 0x00000025#32
  | .nor => 0x00000027#32
  | .slt => 0x0000002A#32
  | .sltu => 0x0000002B#32
  | .beq => 0x10000000#32
  | .bne => 0x14000000#32
  | .addi => 0x20000000#32
  | .addiu => 0x24000000#32
  | .slti => 0x28000000#32
  | .sltiu => 0x2C000000#32
  | .andi => 0x30000000#32
  | .ori => 0x34000000#32
  | .lui => 0x3C000000#32
  | .lw => 0x8C000000#32
  | .lbu => 0x90000000#32
  | .lhu => 0x94000000#32
  | .sb => 0xA0000000#32
  | .sh => 0xA4000000#32
  | .sw => 0xAC000000#32
  | .j => 0x08000000#32
  | .jal => 0x0C000000#32
  | .halt => 0xFFFFFFFF#32

/-! ### The host's question -/

/-- The word whose low `nbits` bits are those of `w` and whose other bits are 0. -/
def tableWord (nbits w : Nat) : Word := BitVec.ofNat 32 (w % 2 ^ nbits)

/-- The instruction the decoder reads from the bits of an opcode-table row, laid out as memory holds them. -/
def decodeTableWord (nbits w : Nat) : Option Instr :=
  match decodeBytes (bytesOfWord (tableWord nbits w)) with
  | .ok i => some i
  | .error _ => none

end Sys2Proof
end

