-- ==== Sys2Proof/Config.lean ====
section
/-! DEFINITION. What the spec leaves to the implementation: the parameters of 00_scope.md R9 and R10. No value is
chosen here (the machine's own values stand in Machine/Params.lean); the constraints of R9 stand in WellFormed.lean. -/

namespace Sys2Proof

/-- What a word with no mapped operation does (00_scope.md R10, 30_encoding.md R80). -/
inductive UnmappedPolicy where
  /-- It raises `IllegalInstruction`. -/
  | illegal
  /-- It has the empty effect, and the pc advances by 4. -/
  | nop
  deriving DecidableEq, Repr

/-- The five parameters of the engine (R9, R10). Addresses are plain natural numbers. -/
structure Config where
  /-- `PC_START`, where the text region begins and execution starts. -/
  pcStart : Nat
  /-- `STATIC_DATA`, where the text region ends and static data begins. -/
  staticData : Nat
  /-- `DYNAMIC_DATA`, where static data ends. -/
  dynamicData : Nat
  /-- `END_MEM`, the last address of memory. -/
  endMem : Nat
  /-- `UNMAPPED_POLICY`. -/
  unmapped : UnmappedPolicy
  deriving DecidableEq, Repr

end Sys2Proof
end

