-- ==== Sys2Proof/Machine/Params.lean ====
section
/-! DEFINITION. The configuration of the machine that `State.reset` describes. The spec gives the four memory-map
constants no value (00_scope.md R9); these are the values of its test configuration TC (92_eei_decisions.md D2), with
the default policy of R10. The statements of this model hold for every configuration that meets R9. -/

namespace Sys2Proof.Machine

/-- The configuration at `State.reset`: TC of D2, and `UNMAPPED_POLICY = illegal` (R10, D4).
DESIGN CHOICE, unsafe (log entries 2 and 3): the repository's own values are unknown. -/
def machineConfig : Config where
  pcStart := 0x1000
  staticData := 0x2000
  dynamicData := 0x3000
  endMem := 0x3FFF
  unmapped := .illegal

end Sys2Proof.Machine
end

