-- ==== Sys2Proof/Machine/State.lean ====
section
/-! DEFINITION. The state of the engine as plain data (spec/10_state.md), the reasons a step can stop, and reset. -/

namespace Sys2Proof.Machine

/-- The state of the fetch-execute loop (R31). `Halted` and `Faulted` are terminal. -/
inductive Status where
  | running
  | halted
  | faulted
  deriving DecidableEq, Repr

/-- The reasons of a fault (R33). -/
inductive FaultReason where
  | alignmentError
  | outOfBounds
  | arithmeticOverflow
  | illegalInstruction
  deriving DecidableEq, Repr

/-- The record of the fault that ended a run (R32). DESIGN CHOICE of the spec (D13, log entry 13): the layout. -/
structure FaultRecord where
  /-- Why the run ended (R33). -/
  reason : FaultReason
  /-- The address of the instruction being fetched or executed when the fault arose. -/
  pc : Word
  /-- The fetched word, or `none` if the fault arose in fetch. -/
  instr : Option Word
  /-- The faulting memory address, or `none` if no memory access raised the fault. -/
  addr : Option Word
  deriving DecidableEq, Repr

/-- The byte memory `M` (R29): the bytes that differ from what an unlisted address reads as, by rising address. The
canonical form is `Memory.wf` of Machine/Ops.lean. -/
abbrev Memory := List Host.Cell

/-- The whole state of the engine: the tuple (x, pc, M, status, fault) of R20, and two fields of the model's own. -/
structure State where
  /-- The general registers x[0] .. x[31] (R21). Read and written through `readReg` and `writeReg` only (R22). -/
  regs : Vector Word 32
  /-- The program counter, the address of the instruction being executed (R26). -/
  pc : Word
  /-- The byte memory (R29). -/
  mem : Memory
  /-- The loop state (R31). -/
  status : Status
  /-- The fault record, `none` unless `Faulted` (R32). -/
  fault : Option FaultRecord
  /-- The MODEL's own: no step has yet run, which `load` asks (70_reset_and_hazards.md R191; log entry 15). -/
  fresh : Bool
  /-- The MODEL's own: the configuration, which is no state in the spec (R20) and which no step writes (log entry 1). -/
  cfg : Config
  deriving DecidableEq, Repr

/-- Where the model stops because the spec gives the machine no meaning. The four faults of the SPEC are no such stop:
they are next states with status `Faulted` (60_exceptions.md R165; log entry 21). -/
inductive Fault where
  /-- Raised by `step`, `load` and the host's `step` and `run` when the configuration breaks a constraint of
  00_scope.md R9, outside which the spec describes no machine. Safe: nothing is claimed of such a machine. -/
  | configurationOutsideConstraints
  /-- Raised by the host's `step` and `run` reports when the status is `Faulted` and no record is held, which R32
  excludes. Safe: no run reaches such a state. -/
  | faultedWithoutRecord
  deriving DecidableEq, Repr

/-- What the model refuses. No instruction is refused. -/
inductive Refusal where
  /-- An instruction that has no meaning yet; raised by no arm of `exec`. Safe. -/
  | notModelled (mnemonic : String)
  /-- Raised by `load` after a step has run (70_reset_and_hazards.md R191: "refused by the model and has no meaning").
  Safe: the model stops where the spec says so. -/
  | loadAfterStep
  /-- Raised by the memory observation accessors for a range past END_MEM (40_fetch_loop.md R109). Safe: the spec says
  that the request is refused. -/
  | observationPastEnd
  deriving DecidableEq, Repr

/-- The machine that `new()` makes for a configuration (70_reset_and_hazards.md R185; R36 to R39): registers and
memory zero, pc at PC_START, `Running`, no fault. -/
def State.resetWith (c : Config) : State where
  regs := Vector.replicate 32 0#32
  pc := BitVec.ofNat 32 c.pcStart
  mem := []
  status := .running
  fault := none
  fresh := true
  cfg := c

/-- The machine right after reset, for the configuration of Machine/Params.lean. -/
def State.reset : State := State.resetWith machineConfig

end Sys2Proof.Machine
end

