-- ==== Sys2Proof/Machine/Ops.lean ====
section
/-! DEFINITION. The named operations over registers and memory, the effect of an instruction and its commit, and the
taking of a fault: the engine blocks of spec/40_fetch_loop.md and the access primitives of spec/20_memory.md. -/

namespace Sys2Proof.Machine

/-! ### The register file (40_fetch_loop.md R90) -/

/-- Reads `x[i]`; index 0 reads zero whatever was written (10_state.md R22). -/
def readReg (s : State) (i : RegIdx) : Word :=
  if i = 0#5 then 0#32 else s.regs[i.toNat]'i.isLt

/-- Writes `x[i] <- v`; a write to index 0 is dropped (R22; log entry 23). -/
def writeReg (regs : Vector Word 32) (i : RegIdx) (v : Word) : Vector Word 32 :=
  if i = 0#5 then regs else regs.set i.toNat v i.isLt

/-! ### Memory as data -/

/-- What an address that is not listed reads as: the reset contents (10_state.md R38). -/
def unlistedByte : Byte := 0x00#8

/-- `M[a]` (R29). -/
def Memory.readByte : Memory → Nat → Byte
  | [], _ => unlistedByte
  | cell :: rest, a => if cell.1 = a then cell.2 else Memory.readByte rest a

/-- The memory without any entry for `a`. -/
def Memory.erase (m : Memory) (a : Nat) : Memory := m.filter fun cell => decide (cell.1 ≠ a)

/-- The memory with the entry `(a, v)` before the first higher address. -/
def Memory.insert : Memory → Nat → Byte → Memory
  | [], a, v => [(a, v)]
  | cell :: rest, a, v => if a < cell.1 then (a, v) :: cell :: rest else cell :: Memory.insert rest a v

/-- `M[a] <- v`, keeping the canonical form: the value an unlisted address reads as is not listed. -/
def Memory.writeByte (m : Memory) (a : Nat) (v : Byte) : Memory :=
  if v = unlistedByte then m.erase a else (m.erase a).insert a v

/-- `M[a+i] <- bytes[i]` for each byte in turn, the loop of 20_memory.md R50. -/
def Memory.writeBytes : Memory → Nat → List Byte → Memory
  | m, _, [] => m
  | m, a, b :: bs => Memory.writeBytes (m.writeByte a b) (a + 1) bs

/-- The canonical form: addresses strictly rising, and no entry equal to what an unlisted address reads as. -/
def Memory.wf : Memory → Bool
  | [] => true
  | [cell] => decide (cell.2 ≠ unlistedByte)
  | cell :: next :: rest =>
    decide (cell.2 ≠ unlistedByte) && decide (cell.1 < next.1) && Memory.wf (next :: rest)

/-- The half-word at `a`, most significant byte first (20_memory.md R41). -/
def Memory.readHalf (m : Memory) (a : Nat) : Half := halfOfBytes (m.readByte a) (m.readByte (a + 1))

/-- The word at `a`, most significant byte first (20_memory.md R40). -/
def Memory.readWord (m : Memory) (a : Nat) : Word :=
  wordOfBytes (m.readByte a) (m.readByte (a + 1)) (m.readByte (a + 2)) (m.readByte (a + 3))

/-! ### Faults and effects of an instruction (00_scope.md R15, R16) -/

/-- The `info` of `raise F(info)` (R15): the reason, and the address where a memory access raised it. -/
structure FaultInfo where
  reason : FaultReason
  addr : Option Word
  deriving DecidableEq, Repr

/-- A memory write of an effect, with its width in the constructor (R16: `(addr, n, v)`). -/
inductive Store where
  | byte (addr : Word) (v : Byte)
  | half (addr : Word) (v : Half)
  | word (addr : Word) (v : Word)
  deriving DecidableEq, Repr

/-- The address a store goes to. -/
def Store.addr : Store → Word
  | .byte a _ => a
  | .half a _ => a
  | .word a _ => a

/-- The bytes of a store, lowest address first (20_memory.md R50). -/
def Store.bytes : Store → List Byte
  | .byte _ v => [v]
  | .half _ v => bytesOfHalf v
  | .word _ v => bytesOfWord v

/-- The effect of an instruction that raises no fault: three optional parts (R16). -/
structure Effect where
  regWrite : Option (RegIdx × Word) := none
  memWrite : Option Store := none
  target : Option Word := none
  deriving DecidableEq, Repr

/-- What an instruction rule produces: a fault or an effect (R16). -/
abbrev Result := Except FaultInfo Effect

/-- An effect that writes one register. -/
def Effect.toReg (i : RegIdx) (v : Word) : Effect := { regWrite := some (i, v) }

/-- An effect that sets the pc. -/
def Effect.jump (target : Word) : Effect := { target := some target }

/-- An effect that writes a register and sets the pc. -/
def Effect.link (i : RegIdx) (v target : Word) : Effect := { regWrite := some (i, v), target := some target }

/-- An effect that writes memory. -/
def Effect.toMem (st : Store) : Effect := { memWrite := some st }

/-- The effect of nothing: only the sequential advance follows. -/
def Effect.empty : Effect := {}

/-! ### The checked access primitives (20_memory.md R45 to R50; 40_fetch_loop.md R93) -/

/-- The checks of an access of `n` bytes (1, 2 or 4): alignment first, then bounds on unbounded integers (R47, R48). -/
def checkAccess (c : Config) (addr : Word) (n : Nat) : Except FaultInfo Unit :=
  if addr.toNat % n ≠ 0 then .error ⟨.alignmentError, some addr⟩
  else if c.endMem < addr.toNat + n - 1 then .error ⟨.outOfBounds, some addr⟩
  else .ok ()

/-- `MemRead(addr, 1)` (R49). -/
def memRead8 (s : State) (addr : Word) : Except FaultInfo Byte :=
  (checkAccess s.cfg addr 1).map fun _ => s.mem.readByte addr.toNat

/-- `MemRead(addr, 2)` (R49). -/
def memRead16 (s : State) (addr : Word) : Except FaultInfo Half :=
  (checkAccess s.cfg addr 2).map fun _ => s.mem.readHalf addr.toNat

/-- `MemRead(addr, 4)` (R49). -/
def memRead32 (s : State) (addr : Word) : Except FaultInfo Word :=
  (checkAccess s.cfg addr 4).map fun _ => s.mem.readWord addr.toNat

/-- `MemWrite(addr, n, v)`, its checks (R50): the bytes are written when the effect is committed. -/
def memWrite (s : State) (st : Store) : Result :=
  (checkAccess s.cfg st.addr st.bytes.length).map fun _ => Effect.toMem st

/-! ### Commit, and the pc sequencer (40_fetch_loop.md R102 to R104) -/

/-- The register part of an effect (R102). -/
def applyRegWrite (w : Option (RegIdx × Word)) (regs : Vector Word 32) : Vector Word 32 :=
  match w with
  | none => regs
  | some (i, v) => writeReg regs i v

/-- The memory part of an effect (R102, R50). -/
def applyMemWrite (w : Option Store) (m : Memory) : Memory :=
  match w with
  | none => m
  | some st => m.writeBytes st.addr.toNat st.bytes

/-- The pc after an instruction: its target if it has one, else `pc + 4` modulo 2^32 (R103; log entries 7 and 9). -/
def nextPc (target : Option Word) (pc : Word) : Word :=
  match target with
  | none => pc + 4#32
  | some t => t

/-- The status after the pc update: `Halted` at or above STATIC_DATA, else as it was (R104; log entry 8). -/
def regionStatus (c : Config) (pc : Word) (status : Status) : Status :=
  if c.staticData ≤ pc.toNat then .halted else status

/-- The commit of an effect, the pc advance and the region check. -/
def commit (e : Effect) (s : State) : State :=
  { s with
    regs := applyRegWrite e.regWrite s.regs
    mem := applyMemWrite e.memWrite s.mem
    pc := nextPc e.target s.pc
    status := regionStatus s.cfg (nextPc e.target s.pc) s.status
    fresh := false }

/-! ### Taking a fault, and the halts -/

/-- TAKING A FAULT, the one shared operation (60_exceptions.md R165 to R167; 40_fetch_loop.md R96, R100): the status
becomes `Faulted` and the record is written; registers, memory and pc stay (log entry 11: the pc). `instr` is the
fetched word, `none` for a fault of the fetch. There is no return from it: `Faulted` is terminal (R171). -/
def takeFault (f : FaultInfo) (instr : Option Word) (s : State) : State :=
  { s with
    status := .faulted
    fault := some { reason := f.reason, pc := s.pc, instr := instr, addr := f.addr }
    fresh := false }

/-- The halt of the sentinel (R97): registers, memory, pc and fault record stay (log entry 12: the pc). -/
def haltAtSentinel (s : State) : State := { s with status := .halted, fresh := false }

/-- The end of an instruction whose word is `w`: its fault is taken, or its effect committed (R100, R102). -/
def complete (w : Word) (r : Result) (s : State) : Host.Outcome State Fault Refusal :=
  match r with
  | .error f => .next (takeFault f (some w) s)
  | .ok e => .next (commit e s)

/-- A word with no mapped operation, under the policy of the configuration (30_encoding.md R80). -/
def unmappedWord (w : Word) (s : State) : Host.Outcome State Fault Refusal :=
  match s.cfg.unmapped with
  | .illegal => complete w (.error ⟨.illegalInstruction, none⟩) s
  | .nop => complete w (.ok Effect.empty) s

/-- Instruction fetch: `MemRead(pc, 4)` (20_memory.md R51). -/
def fetch (s : State) : Except FaultInfo Word := memRead32 s s.pc

/-- A word placed in memory at an address by the word store of R50, its checks left to the caller. -/
def placeWord (a : Nat) (v : Word) (m : Memory) : Memory := m.writeBytes a (bytesOfWord v)

end Sys2Proof.Machine
end

