-- ==== Sys2Proof/Machine/Flags.lean ====
section
/-! DEFINITION. The conditions an operation computes: signed overflow and the comparisons. The hardware stores none of
them, for it has no flags (10_state.md R34); these are functions of the operands only (40_fetch_loop.md R92). -/

namespace Sys2Proof.Machine

/-- An exact result fits signed 32 bits (41_alu_register.md R127). -/
def fitsSigned (n : Int) : Bool := decide (-2 ^ 31 ≤ n) && decide (n ≤ 2 ^ 31 - 1)

/-- The sum of `add` and `addi`: the true sum of the signed readings, or `ArithmeticOverflow` (R116, R131). -/
def signedAdd (a b : Word) : Except FaultInfo Word :=
  if fitsSigned (a.toInt + b.toInt) then .ok (a + b) else .error ⟨.arithmeticOverflow, none⟩

/-- The difference of `sub`: the true difference of the signed readings, or `ArithmeticOverflow` (R118; log entry 30:
the spec derives that `sub` is a signed form). -/
def signedSub (a b : Word) : Except FaultInfo Word :=
  if fitsSigned (a.toInt - b.toInt) then .ok (a - b) else .error ⟨.arithmeticOverflow, none⟩

/-- `bool01(c)` (00_scope.md R13; R129). -/
def bool01 (c : Bool) : Word := if c then 0x00000001#32 else 0x00000000#32

/-- Less-than of the signed readings (R123). -/
def lessSigned (a b : Word) : Bool := decide (a.toInt < b.toInt)

/-- Less-than of the unsigned readings (R124). -/
def lessUnsigned (a b : Word) : Bool := decide (a.toNat < b.toNat)

end Sys2Proof.Machine
end

