-- ==== Sys2Proof/Machine/Operands.lean ====
section
/-! DEFINITION. The operand forms (spec/30_encoding.md section 2; spec/44_load_store.md R150). -/

namespace Sys2Proof.Machine

/-- `imm_s`: the immediate sign-extended, the default (30_encoding.md R68). -/
def immSigned (imm : Imm16) : Word := imm.signExtend 32

/-- `imm_z`: the immediate zero-extended, as `sltiu` uses it (R69; 90_conflicts.md C8). -/
def immZero (imm : Imm16) : Word := imm.setWidth 32

/-- The immediate of `andi` and `ori`: zero-extended.
PRESUMED, unsafe (R69, D5, log entry 5): the spec takes it from general knowledge. -/
def immLogical (imm : Imm16) : Word := immZero imm

/-- The value of `lui`: the immediate in bits 31:16, zeros below.
PRESUMED, unsafe (R70, D6, log entry 6): the spec takes it from general knowledge. -/
def immUpper (imm : Imm16) : Word := imm ++ 0x0000#16

/-- The value of a shift amount, 0 to 31 (R73). -/
def shiftAmount (shamt : Shamt) : Nat := shamt.toNat

/-- The target of a taken branch: `(pc + 4) + (imm_s << 2)`, modulo 2^32 (R71; log entry 9). -/
def branchTarget (pc : Word) (imm : Imm16) : Word := (pc + 4#32) + (immSigned imm <<< 2)

/-- The target of a jump: the top 4 bits of the jump's own address over `address << 2` (R72; 90_conflicts.md C9). -/
def jumpTarget (pc : Word) (address : Target26) : Word :=
  (pc &&& 0xF0000000#32) ||| ((address.setWidth 32 : Word) <<< 2)

/-- The effective address of a load or store: base plus displacement, modulo 2^32 (R150, 20_memory.md R58). -/
def effectiveAddress (s : State) (rs : RegIdx) (imm : Imm16) : Word := readReg s rs + immSigned imm

end Sys2Proof.Machine
end

