-- ==== Sys2Proof/Machine/AluImmediate.lean ====
section
/-! DEFINITION. The register-immediate ALU instructions (spec/42_alu_immediate.md): `x[rs]` and an immediate from the
pre-state, a write of `x[rt]`, no memory access, no pc target (R130). -/

namespace Sys2Proof.Machine

/-- `addi rt, rs, imm` (R131): the signed sum with imm_s, or `ArithmeticOverflow`. -/
def execAddi (rs rt : RegIdx) (imm : Imm16) (s : State) : Host.Outcome State Fault Refusal :=
  complete (encode (.addi rs rt imm)) ((signedAdd (readReg s rs) (immSigned imm)).map (Effect.toReg rt)) s

/-- `addiu rt, rs, imm` (R132): the sum with imm_s modulo 2^32. -/
def execAddiu (rs rt : RegIdx) (imm : Imm16) (s : State) : Host.Outcome State Fault Refusal :=
  complete (encode (.addiu rs rt imm)) (.ok (Effect.toReg rt (readReg s rs + immSigned imm))) s

/-- `andi rt, rs, imm` (R133): bitwise and with imm_z (log entry 5). -/
def execAndi (rs rt : RegIdx) (imm : Imm16) (s : State) : Host.Outcome State Fault Refusal :=
  complete (encode (.andi rs rt imm)) (.ok (Effect.toReg rt (readReg s rs &&& immLogical imm))) s

/-- `ori rt, rs, imm` (R134): bitwise or with imm_z (log entry 5). -/
def execOri (rs rt : RegIdx) (imm : Imm16) (s : State) : Host.Outcome State Fault Refusal :=
  complete (encode (.ori rs rt imm)) (.ok (Effect.toReg rt (readReg s rs ||| immLogical imm))) s

/-- `slti rt, rs, imm` (R135): 1 if less than imm_s as signed numbers, else 0. -/
def execSlti (rs rt : RegIdx) (imm : Imm16) (s : State) : Host.Outcome State Fault Refusal :=
  complete (encode (.slti rs rt imm)) (.ok (Effect.toReg rt (bool01 (lessSigned (readReg s rs) (immSigned imm))))) s

/-- `sltiu rt, rs, imm` (R136): 1 if less than imm_z as unsigned numbers, else 0 (90_conflicts.md C8). -/
def execSltiu (rs rt : RegIdx) (imm : Imm16) (s : State) : Host.Outcome State Fault Refusal :=
  complete (encode (.sltiu rs rt imm)) (.ok (Effect.toReg rt (bool01 (lessUnsigned (readReg s rs) (immZero imm))))) s

/-- `lui rt, imm` (R137): imm16 over a zero half-word; `rs` is ignored (log entry 6). -/
def execLui (rs rt : RegIdx) (imm : Imm16) (s : State) : Host.Outcome State Fault Refusal :=
  complete (encode (.lui rs rt imm)) (.ok (Effect.toReg rt (immUpper imm))) s

end Sys2Proof.Machine
end

