-- ==== Sys2Proof/Machine/AluRegister.lean ====
section
/-! DEFINITION. The register-register ALU and shift instructions (spec/41_alu_register.md): operands from the
pre-state, at most one register write, no memory access, no pc target (R115). -/

namespace Sys2Proof.Machine

/-- `add rd, rs, rt` (R116): the signed sum, or `ArithmeticOverflow`, whatever the destination (R127; log entry 17). -/
def execAdd (rs rt rd : RegIdx) (shamt : Shamt) (s : State) : Host.Outcome State Fault Refusal :=
  complete (encode (.add rs rt rd shamt)) ((signedAdd (readReg s rs) (readReg s rt)).map (Effect.toReg rd)) s

/-- `addu rd, rs, rt` (R117): the sum modulo 2^32. -/
def execAddu (rs rt rd : RegIdx) (shamt : Shamt) (s : State) : Host.Outcome State Fault Refusal :=
  complete (encode (.addu rs rt rd shamt)) (.ok (Effect.toReg rd (readReg s rs + readReg s rt))) s

/-- `sub rd, rs, rt` (R118): the signed difference, or `ArithmeticOverflow`. -/
def execSub (rs rt rd : RegIdx) (shamt : Shamt) (s : State) : Host.Outcome State Fault Refusal :=
  complete (encode (.sub rs rt rd shamt)) ((signedSub (readReg s rs) (readReg s rt)).map (Effect.toReg rd)) s

/-- `subu rd, rs, rt` (R119): the difference modulo 2^32. -/
def execSubu (rs rt rd : RegIdx) (shamt : Shamt) (s : State) : Host.Outcome State Fault Refusal :=
  complete (encode (.subu rs rt rd shamt)) (.ok (Effect.toReg rd (readReg s rs - readReg s rt))) s

/-- `and rd, rs, rt` (R120): bitwise and. -/
def execAnd (rs rt rd : RegIdx) (shamt : Shamt) (s : State) : Host.Outcome State Fault Refusal :=
  complete (encode (.and rs rt rd shamt)) (.ok (Effect.toReg rd (readReg s rs &&& readReg s rt))) s

/-- `or rd, rs, rt` (R121): bitwise or. -/
def execOr (rs rt rd : RegIdx) (shamt : Shamt) (s : State) : Host.Outcome State Fault Refusal :=
  complete (encode (.or rs rt rd shamt)) (.ok (Effect.toReg rd (readReg s rs ||| readReg s rt))) s

/-- `nor rd, rs, rt` (R122): the complement of bitwise or. -/
def execNor (rs rt rd : RegIdx) (shamt : Shamt) (s : State) : Host.Outcome State Fault Refusal :=
  complete (encode (.nor rs rt rd shamt)) (.ok (Effect.toReg rd (~~~(readReg s rs ||| readReg s rt)))) s

/-- `slt rd, rs, rt` (R123): 1 if less as signed numbers, else 0. -/
def execSlt (rs rt rd : RegIdx) (shamt : Shamt) (s : State) : Host.Outcome State Fault Refusal :=
  complete (encode (.slt rs rt rd shamt)) (.ok (Effect.toReg rd (bool01 (lessSigned (readReg s rs) (readReg s rt))))) s

/-- `sltu rd, rs, rt` (R124): 1 if less as unsigned numbers, else 0. -/
def execSltu (rs rt rd : RegIdx) (shamt : Shamt) (s : State) : Host.Outcome State Fault Refusal :=
  complete (encode (.sltu rs rt rd shamt)) (.ok (Effect.toReg rd (bool01 (lessUnsigned (readReg s rs) (readReg s rt))))) s

/-- `sll rt, rs, shamt` (R125): reads `rs`, shifts left with zero fill, writes `rt`; `rd` is ignored (90_conflicts.md C7). -/
def execSll (rs rt rd : RegIdx) (shamt : Shamt) (s : State) : Host.Outcome State Fault Refusal :=
  complete (encode (.sll rs rt rd shamt)) (.ok (Effect.toReg rt (readReg s rs <<< shiftAmount shamt))) s

/-- `srl rt, rs, shamt` (R126): reads `rs`, shifts right with zero fill, writes `rt`; `rd` is ignored (90_conflicts.md C7). -/
def execSrl (rs rt rd : RegIdx) (shamt : Shamt) (s : State) : Host.Outcome State Fault Refusal :=
  complete (encode (.srl rs rt rd shamt)) (.ok (Effect.toReg rt (readReg s rs >>> shiftAmount shamt))) s

end Sys2Proof.Machine
end

