-- ==== Sys2Proof/Machine/ControlTransfer.lean ====
section
/-! DEFINITION. The control-transfer instructions (spec/43_control_transfer.md). `s.pc` is the address of the
instruction itself (10_state.md R26); a target suppresses the sequential advance (40_fetch_loop.md R103), and there is
no delay slot (R146). -/

namespace Sys2Proof.Machine

/-- `jr rs` (R141): the pc takes the register's value unchanged, aligned or not (log entry 10). -/
def execJr (rs rt rd : RegIdx) (shamt : Shamt) (s : State) : Host.Outcome State Fault Refusal :=
  complete (encode (.jr rs rt rd shamt)) (.ok (Effect.jump (readReg s rs))) s

/-- `beq rs, rt, off` (R142): to the branch target if the registers are equal, else no target. -/
def execBeq (rs rt : RegIdx) (imm : Imm16) (s : State) : Host.Outcome State Fault Refusal :=
  complete (encode (.beq rs rt imm))
    (.ok (if readReg s rs = readReg s rt then Effect.jump (branchTarget s.pc imm) else Effect.empty)) s

/-- `bne rs, rt, off` (R143): to the branch target if the registers differ, else no target. -/
def execBne (rs rt : RegIdx) (imm : Imm16) (s : State) : Host.Outcome State Fault Refusal :=
  complete (encode (.bne rs rt imm))
    (.ok (if readReg s rs = readReg s rt then Effect.empty else Effect.jump (branchTarget s.pc imm))) s

/-- `j target` (R144). -/
def execJ (address : Target26) (s : State) : Host.Outcome State Fault Refusal :=
  complete (encode (.j address)) (.ok (Effect.jump (jumpTarget s.pc address))) s

/-- `jal target` (R145): links `pc + 4` through `r31` and jumps. -/
def execJal (address : Target26) (s : State) : Host.Outcome State Fault Refusal :=
  complete (encode (.jal address)) (.ok (Effect.link 31#5 (s.pc + 4#32) (jumpTarget s.pc address))) s

end Sys2Proof.Machine
end

