-- ==== Sys2Proof/Machine/LoadStore.lean ====
section
/-! DEFINITION. The loads and stores (spec/44_load_store.md): base plus displacement (R150), the checked primitives of
20_memory.md R49 and R50. A load of `r0` performs its access and its checks (R159; log entry 18). -/

namespace Sys2Proof.Machine

/-- `lbu rt, off(rs)` (R151): one byte, zero-extended, into `x[rt]`. -/
def execLbu (rs rt : RegIdx) (imm : Imm16) (s : State) : Host.Outcome State Fault Refusal :=
  complete (encode (.lbu rs rt imm))
    ((memRead8 s (effectiveAddress s rs imm)).map (fun b => Effect.toReg rt (b.setWidth 32))) s

/-- `lhu rt, off(rs)` (R152): one half-word, zero-extended, into `x[rt]`. -/
def execLhu (rs rt : RegIdx) (imm : Imm16) (s : State) : Host.Outcome State Fault Refusal :=
  complete (encode (.lhu rs rt imm))
    ((memRead16 s (effectiveAddress s rs imm)).map (fun b => Effect.toReg rt (b.setWidth 32))) s

/-- `lw rt, off(rs)` (R153): one word, into `x[rt]`. -/
def execLw (rs rt : RegIdx) (imm : Imm16) (s : State) : Host.Outcome State Fault Refusal :=
  complete (encode (.lw rs rt imm))
    ((memRead32 s (effectiveAddress s rs imm)).map (Effect.toReg rt)) s

/-- `sb rt, off(rs)` (R154): stores the low 8 bits of `x[rt]`; the base is `rs` (R160). -/
def execSb (rs rt : RegIdx) (imm : Imm16) (s : State) : Host.Outcome State Fault Refusal :=
  complete (encode (.sb rs rt imm)) (memWrite s (.byte (effectiveAddress s rs imm) ((readReg s rt).setWidth 8))) s

/-- `sh rt, off(rs)` (R155): stores the low 16 bits of `x[rt]`; the base is `rs` (R160). -/
def execSh (rs rt : RegIdx) (imm : Imm16) (s : State) : Host.Outcome State Fault Refusal :=
  complete (encode (.sh rs rt imm)) (memWrite s (.half (effectiveAddress s rs imm) ((readReg s rt).setWidth 16))) s

/-- `sw rt, off(rs)` (R156): stores all 32 bits of `x[rt]`; the base is `rs` (R160). -/
def execSw (rs rt : RegIdx) (imm : Imm16) (s : State) : Host.Outcome State Fault Refusal :=
  complete (encode (.sw rs rt imm)) (memWrite s (.word (effectiveAddress s rs imm) (readReg s rt))) s

end Sys2Proof.Machine
end

