-- ==== Sys2Proof/Machine/Sentinel.lean ====
section
/-! DEFINITION. The halt sentinel (spec/40_fetch_loop.md R97; spec/30_encoding.md R82). -/

namespace Sys2Proof.Machine

/-- The word 0xFFFFFFFF: the engine halts with the pc at the sentinel's own address. -/
def execHalt (s : State) : Host.Outcome State Fault Refusal := .next (haltAtSentinel s)

end Sys2Proof.Machine
end

