-- ==== Sys2Proof/WellFormed.lean ====
section
/-! DEFINITION. The checks the spec makes on what the engine is given. Every term of `Instr` is an instruction (its
fields have the widths of 30_encoding.md R66, and R81 admits every value of every field), so nothing is checked there;
what can be ill-formed is a configuration (00_scope.md R9) and a program for a configuration (70_reset_and_hazards.md
R188). -/

namespace Sys2Proof

/-- The constraints of R9, one conjunct each. -/
def Config.wf (c : Config) : Bool :=
  decide (c.pcStart % 4 = 0) && decide (c.staticData % 4 = 0) && decide (c.dynamicData % 4 = 0)
    && decide ((c.endMem + 1) % 4 = 0) && decide (c.pcStart < c.staticData)
    && decide (c.staticData ≤ c.dynamicData) && decide (c.dynamicData ≤ c.endMem + 1)
    && decide (c.endMem + 1 ≤ 2 ^ 31)

/-- The two size bounds that `load` checks first (R188). -/
def Program.fits (c : Config) (p : Program) : Bool :=
  decide (p.instructions.length * 4 ≤ c.staticData - c.pcStart)
    && decide (p.data.length * 4 ≤ c.dynamicData - c.staticData)

end Sys2Proof
end

