-- ==== Sys2Proof/Machine/Loop.lean ====
section
/-! DEFINITION. The fetch-execute loop (spec/40_fetch_loop.md R95 to R104), which Step.lean calls. -/

namespace Sys2Proof.Machine

/-- A fetched word: the decoded instruction runs, or the word is unmapped (R97 to R99). The sentinel decodes to
`halt`, and the decoder tests it before any field (30_encoding.md R74). -/
def runWord (w : Word) (s : State) : Host.Outcome State Fault Refusal :=
  match decode w with
  | .ok i => exec i s
  | .error _ => unmappedWord w s

/-- One pass of the loop in `Running`: fetch, then run the word; a fetch fault is taken with no word (R96). -/
def cycle (s : State) : Host.Outcome State Fault Refusal :=
  match fetch s with
  | .error f => .next (takeFault f none s)
  | .ok w => runWord w s

/-- One step: in a terminal state nothing changes (R95; log entry 14). Outside the constraints of 00_scope.md R9 the
spec describes no machine (log entry 24). -/
def loopStep (s : State) : Host.Outcome State Fault Refusal :=
  if s.cfg.wf then
    match s.status with
    | .running => cycle s
    | .halted => .next s
    | .faulted => .next s
  else .fault .configurationOutsideConstraints

end Sys2Proof.Machine
end

