-- ==== Sys2Proof/Machine/Step.lean ====
section
/-! DEFINITION. The step of the machine, and the word the host places where it fetches. -/

namespace Sys2Proof.Machine

/-- One step of the engine (40_fetch_loop.md R95 to R104, R106). -/
def step (s : State) : Host.Outcome State Fault Refusal := loopStep s

/-- The state with the word of an opcode-table row at the pc, where the next step fetches (20_memory.md R51). The
spec's own way of placing a program is `load` (log entry 26). -/
def State.withFetchWord (s : State) (nbits w : Nat) : State :=
  { s with mem := placeWord s.pc.toNat (tableWord nbits w) s.mem }

end Sys2Proof.Machine
end

