-- ==== Sys2Proof/Machine/HostOps.lean ====
section
/-! DEFINITION. The host's operations beside `new` (which is `State.resetWith`): `load`, `step`, `run` and the
observation accessors (spec/40_fetch_loop.md section 3; spec/70_reset_and_hazards.md section 2). -/

namespace Sys2Proof.Machine

/-! ### Numeric encodings (log entry 13: the spec's own) -/

/-- The host's number of a status (10_state.md R31). -/
def statusCode : Status → Nat
  | .running => 0
  | .halted => 1
  | .faulted => 2

/-- The host's number of a fault reason (10_state.md R33). -/
def reasonCode : FaultReason → Nat
  | .alignmentError => 1
  | .outOfBounds => 2
  | .arithmeticOverflow => 3
  | .illegalInstruction => 4

/-! ### `load` -/

/-- What `load` tells its caller (R188, R189): `Ok`, or `LoadError::ProgramTooLarge`, which is no fault (R168). -/
inductive LoadResult where
  | ok
  | programTooLarge
  deriving DecidableEq, Repr

/-- The words stored one after another from `a` on (R189). Under R9 and the size bounds no such write can fault. -/
def placeWords : Nat → List Word → Memory → Memory
  | _, [], m => m
  | a, w :: ws, m => placeWords (a + 4) ws (placeWord a w m)

/-- The memory after a successful `load`: the instructions at PC_START, then the data at STATIC_DATA (R189). -/
def loadedMemory (c : Config) (p : Program) (m : Memory) : Memory :=
  placeWords c.staticData p.data (placeWords c.pcStart p.instructions m)

/-- `load(program)` (R188 to R192). After a step it is refused (R191; log entry 15). -/
def load (p : Program) (s : State) : Host.Outcome (LoadResult × State) Fault Refusal :=
  if s.cfg.wf then
    if s.fresh then
      if p.fits s.cfg then .next (.ok, { s with mem := loadedMemory s.cfg p s.mem })
      else .next (.programTooLarge, s)
    else .refused .loadAfterStep
  else .fault .configurationOutsideConstraints

/-! ### `step` and `run` -/

/-- What the host's `step` reports: the status after the step (R108; log entry 14). -/
inductive StepOutcome where
  | running
  | halted
  | faulted (reason : FaultReason)
  deriving DecidableEq, Repr

/-- The report of a state. -/
def reportOf (s : State) : Host.Outcome StepOutcome Fault Refusal :=
  match s.status, s.fault with
  | .running, _ => .next .running
  | .halted, _ => .next .halted
  | .faulted, some f => .next (.faulted f.reason)
  | .faulted, none => .fault .faultedWithoutRecord

/-- A state with its report. -/
def withReport (s : State) : Host.Outcome (StepOutcome × State) Fault Refusal :=
  match reportOf s with
  | .next o => .next (o, s)
  | .fault r => .fault r
  | .refused r => .refused r

/-- The host's `step()` (R108). -/
def hostStep (s : State) : Host.Outcome (StepOutcome × State) Fault Refusal :=
  match step s with
  | .next t => withReport t
  | .fault r => .fault r
  | .refused r => .refused r

/-- The host's `run()` (R107) with fuel: it stops in a terminal state. A report `running` means that the fuel ran out,
which is not `Halted` (log entry 22). -/
def hostRun : Nat → State → Host.Outcome (StepOutcome × State) Fault Refusal
  | 0, s => withReport s
  | fuel + 1, s =>
    match s.status with
    | .halted => withReport s
    | .faulted => withReport s
    | .running =>
      match step s with
      | .next t => hostRun fuel t
      | .fault r => .fault r
      | .refused r => .refused r

/-! ### Observation (R109, R110; log entry 19). The pc, status and fault record are the fields of State. -/

/-- The observed value of a register; register 0 is always zero (R110). -/
def observeReg (s : State) (i : RegIdx) : Word := readReg s i

/-- The `k` bytes from `a` on. -/
def bytesFrom (m : Memory) : Nat → Nat → List Byte
  | _, 0 => []
  | a, k + 1 => m.readByte a :: bytesFrom m (a + 1) k

/-- The byte range `[a, a + k)`, refused past END_MEM. -/
def observeBytes (s : State) (a k : Nat) : Host.Outcome (List Byte) Fault Refusal :=
  if a + k ≤ s.cfg.endMem + 1 then .next (bytesFrom s.mem a k) else .refused .observationPastEnd

/-- The word view of memory at `a`: the big-endian join, with no alignment requirement. -/
def observeWord (s : State) (a : Nat) : Host.Outcome Word Fault Refusal :=
  if a + 4 ≤ s.cfg.endMem + 1 then .next (s.mem.readWord a) else .refused .observationPastEnd

end Sys2Proof.Machine
end

