-- ==== Sys2Proof/Safety.lean ====
section
/-! DEFINITION. The words that claims about the machine are written in: what an instruction leaves unchanged, how a
run goes on or faults, and the invariant of every state a run reaches. -/

namespace Sys2Proof.Machine

/-! ### Frames -/

/-- Every register reads as before. -/
def SameRegs (s t : State) : Prop := ∀ r, readReg t r = readReg s r

/-- Register `i` now reads `v`, every other register reads as before, and register 0 reads zero even if it is `i`
(10_state.md R22). -/
def RegsWith (s : State) (i : RegIdx) (v : Word) (t : State) : Prop :=
  ∀ r, readReg t r = if r = 0#5 then 0#32 else if r = i then v else readReg s r

/-- Every byte of memory reads as before. -/
def SameMemory (s t : State) : Prop := ∀ a, t.mem.readByte a = s.mem.readByte a

/-- Every byte of memory outside the `n` bytes from `a` on reads as before. -/
def SameMemoryOutside (s : State) (a n : Nat) (t : State) : Prop :=
  ∀ b, (b < a ∨ a + n ≤ b) → t.mem.readByte b = s.mem.readByte b

/-- The instruction ended without a fault and the pc is now `target`: the engine is `Halted` if the target is at or
above STATIC_DATA and its status is otherwise unchanged (40_fetch_loop.md R103, R104); the fault record and the
configuration stay, and a step has now run. -/
def GoesOnAt (s : State) (target : Word) (t : State) : Prop :=
  t.pc = target ∧ t.status = (if s.cfg.staticData ≤ target.toNat then .halted else s.status) ∧ t.fault = s.fault
    ∧ t.cfg = s.cfg ∧ t.fresh = false

/-- The engine has faulted with this record, and nothing but status and record has changed (60_exceptions.md R167),
apart from the model's note that a step has run. -/
def FaultedAs (s : State) (f : FaultRecord) (t : State) : Prop :=
  t.status = .faulted ∧ t.fault = some f ∧ t.regs = s.regs ∧ t.mem = s.mem ∧ t.pc = s.pc ∧ t.cfg = s.cfg
    ∧ t.fresh = false

/-- The register an instruction writes, if it writes one (10_state.md R24). -/
def destination : Instr → Option RegIdx
  | .sll _ rt _ _ | .srl _ rt _ _ => some rt
  | .add _ _ rd _ | .addu _ _ rd _ | .sub _ _ rd _ | .subu _ _ rd _ | .and _ _ rd _ | .or _ _ rd _ | .nor _ _ rd _
  | .slt _ _ rd _ | .sltu _ _ rd _ => some rd
  | .addi _ rt _ | .addiu _ rt _ | .slti _ rt _ | .sltiu _ rt _ | .andi _ rt _ | .ori _ rt _ | .lui _ rt _
  | .lw _ rt _ | .lbu _ rt _ | .lhu _ rt _ => some rt
  | .jal _ => some 31#5
  | .jr .. | .beq .. | .bne .. | .sb .. | .sh .. | .sw .. | .j _ | .halt => none

/-- The operations that store (20_memory.md R52). -/
def storesMemory : Op → Bool
  | .sb | .sh | .sw => true
  | .sll | .srl | .jr | .add | .addu | .sub | .subu | .and | .or | .nor | .slt | .sltu | .beq | .bne | .addi | .addiu
  | .slti | .sltiu | .andi | .ori | .lui | .lw | .lbu | .lhu | .j | .jal | .halt => false

/-! ### Fault records (60_exceptions.md R166) -/

/-- The operations whose execution may raise a reason. -/
def raisers : FaultReason → List Op
  | .alignmentError => [.lhu, .lw, .sh, .sw]
  | .outOfBounds => [.lbu, .lhu, .lw, .sb, .sh, .sw]
  | .arithmeticOverflow => [.add, .sub, .addi]
  | .illegalInstruction => []

/-- The word of a record decodes to an operation that may raise the record's reason. -/
def RaisedByWord (f : FaultRecord) : Prop :=
  ∃ w i, f.instr = some w ∧ decode w = .ok i ∧ i.op ∈ raisers f.reason

/-- The record is one of the rows of R166's table: its address and word are there exactly where the table has them,
the word can raise the reason, and the address has what the reason says of it. -/
def RecordLegal (c : Config) (f : FaultRecord) : Prop :=
  match f.reason with
  | .alignmentError =>
    ∃ a, f.addr = some a ∧ a.toNat % 4 ≠ 0 ∧ ((f.instr = none ∧ a = f.pc) ∨ RaisedByWord f)
  | .outOfBounds => ∃ a, f.addr = some a ∧ c.endMem < a.toNat ∧ ((f.instr = none ∧ a = f.pc) ∨ RaisedByWord f)
  | .arithmeticOverflow => f.addr = none ∧ RaisedByWord f
  | .illegalInstruction =>
    f.addr = none ∧ c.unmapped = .illegal ∧ ∃ w e, f.instr = some w ∧ decode w = .error e

/-! ### The invariant of every reachable state -/

/-- What holds at reset and after every step. -/
structure Inv (s : State) : Prop where
  /-- The configuration meets the constraints of 00_scope.md R9. -/
  config : s.cfg.wf = true
  /-- Memory has its canonical form. -/
  memory_canonical : s.mem.wf = true
  /-- Memory lists no address past END_MEM, where no memory exists (10_state.md R29). -/
  memory_bounded : ∀ cell ∈ s.mem, cell.1 ≤ s.cfg.endMem
  /-- The storage behind register 0 is zero (R22). -/
  register_zero : s.regs[0] = 0#32
  /-- While running, the pc is below STATIC_DATA (20_memory.md R57). -/
  running_in_text : s.status = .running → s.pc.toNat < s.cfg.staticData
  /-- The two kinds of `Halted` (40_fetch_loop.md R105). -/
  halted_kind : s.status = .halted →
    s.cfg.staticData ≤ s.pc.toNat ∨ (s.pc.toNat % 4 = 0 ∧ s.mem.readWord s.pc.toNat = sentinel)
  /-- No record unless `Faulted` (R32). -/
  no_fault : s.status ≠ .faulted → s.fault = none
  /-- A record in `Faulted` (R32), of the instruction at the pc (R100), as the table of R166 allows. -/
  fault_record : s.status = .faulted → ∃ f, s.fault = some f ∧ f.pc = s.pc ∧ RecordLegal s.cfg f
  /-- Before the first step, registers, pc and status are as reset left them (70_reset_and_hazards.md R191, R192). -/
  fresh_as_reset : s.fresh = true →
    s.regs = Vector.replicate 32 0#32 ∧ s.pc = BitVec.ofNat 32 s.cfg.pcStart ∧ s.status = .running

end Sys2Proof.Machine
end

