-- ==== Sys2Proof/Certificates/Slice0/Obligations.lean ====
section
/-! DEFINITION. The statements for the provers. Each docstring names the rule of spec/ it formalises; where a clause
rests on a decision of the spec or on this model's own choice, it names the log entry (notes/assumptions/). -/

open Sys2Proof Sys2Proof.Machine

/-! ### Encoding (30_encoding.md) -/

/-- Decoding the word of any instruction, or its bytes as memory holds them, gives the instruction back: every field,
the ignored ones too (R66, R81). The numbers are log entry 4's, the kept ignored fields log entry 16's. -/
def Obligations.DecodeOfEncodeIsTheInstruction : Prop :=
  ∀ i : Instr, decode (encode i) = .ok i ∧ decodeBytes (encodeBytes i) = .ok i

/-- Encoding what a word decodes to gives the word back, so that the word a fault record holds (R32, R100) is the
fetched word, bit for bit. Log entries 4 and 16. -/
def Obligations.EncodeOfDecodeIsTheWord : Prop :=
  ∀ (w : Word) (i : Instr), decode w = .ok i → encode i = w

/-- A word is unmapped exactly as R79 lists it: it is not the sentinel, and its opcode is 0 with a func outside the
list, or its opcode is outside the list. The numbers of the lists are log entry 4's. -/
def Obligations.UnmappedWordsAreThoseOutsideTheLists : Prop :=
  ∀ w : Word, (∃ e, decode w = .error e) ↔
    w ≠ 0xFFFFFFFF#32 ∧
      ((w.extractLsb' 26 6 = 0x00#6 ∧ w.extractLsb' 0 6 ∉
          [0x00#6, 0x02#6, 0x08#6, 0x20#6, 0x21#6, 0x22#6, 0x23#6, 0x24#6, 0x25#6, 0x27#6, 0x2A#6, 0x2B#6]) ∨
        w.extractLsb' 26 6 ∉
          [0x00#6, 0x02#6, 0x03#6, 0x04#6, 0x05#6, 0x08#6, 0x09#6, 0x0A#6, 0x0B#6, 0x0C#6, 0x0D#6, 0x0F#6, 0x23#6,
            0x24#6, 0x25#6, 0x28#6, 0x29#6, 0x2B#6])

/-- A word decodes to an operation exactly when it matches the one match/mask pair of that operation (R78), so no two
rows match one word. The numbers are log entry 4's. -/
def Obligations.DecodedOperationIsTheMatchingRow : Prop :=
  ∀ (w : Word) (o : Op), (∃ i, decode w = .ok i ∧ i.op = o) ↔ w &&& o.mask = o.pattern

/-- Words written out in 95_test_vectors.md decode to the instructions they stand for there. -/
def Obligations.SpecWordsDecodeAsListed : Prop :=
  decode 0x00221820#32 = .ok (.add 1 2 3 0) ∧ decode 0x00220100#32 = .ok (.sll 1 2 0 4)
    ∧ decode 0x03E0F808#32 = .ok (.jr 31 0 31 0) ∧ decode 0x20220001#32 = .ok (.addi 1 2 1)
    ∧ decode 0x2C22FFFF#32 = .ok (.sltiu 1 2 0xFFFF) ∧ decode 0x1422FFFF#32 = .ok (.bne 1 2 0xFFFF)
    ∧ decode 0x8C221FFC#32 = .ok (.lw 1 2 0x1FFC) ∧ decode 0xA4230006#32 = .ok (.sh 1 3 6)
    ∧ decode 0x0C000404#32 = .ok (.jal 0x404) ∧ decode 0xFFFFFFFF#32 = .ok .halt
    ∧ decode 0xFC000000#32 = .error (.unmappedOpcode 0x3F) ∧ decode 0x0000000C#32 = .error (.unmappedFunc 0x0C)

/-! ### Reset and state (10_state.md) -/

/-- After reset, for every configuration that meets R9: every register is zero (R36), the pc is PC_START (R37), every
byte of memory is zero (R38), the status is Running and there is no fault (R39). -/
def Obligations.ResetLeavesTheStatedValues : Prop :=
  ∀ c : Config, c.wf = true →
    (∀ r : Fin 32, (State.resetWith c).regs[r] = 0#32) ∧ (State.resetWith c).pc.toNat = c.pcStart
      ∧ (∀ a, (State.resetWith c).mem.readByte a = 0x00#8) ∧ (State.resetWith c).status = .running
      ∧ (State.resetWith c).fault = none

/-- Register 0 is observed as zero in every state, and so after every instruction, the ones that name it as a
destination too (R110). -/
def Obligations.RegisterZeroIsAlwaysObservedAsZero : Prop :=
  (∀ s : State, observeReg s 0#5 = 0#32)
    ∧ ∀ (i : Instr) (s t : State), exec i s = .next t → observeReg t 0#5 = 0#32

/-- Memories in canonical form that read alike everywhere are the same data. The representation is the model's own
choice (log entry 31). -/
def Obligations.MemoriesThatReadAlikeAreEqual : Prop :=
  ∀ m m' : Memory, m.wf = true → m'.wf = true → (∀ a, m.readByte a = m'.readByte a) → m = m'

/-! ### Memory access (20_memory.md) -/

/-- `MemRead(addr, n)` for n = 1, 2, 4: alignment first, then bounds on unbounded integers, then the bytes joined, the
most significant first (R49). -/
def Obligations.MemReadChecksThenJoinsTheBytes : Prop :=
  ∀ (s : State) (addr : Word),
    memRead8 s addr = (if s.cfg.endMem < addr.toNat then .error ⟨.outOfBounds, some addr⟩
      else .ok (s.mem.readByte addr.toNat))
    ∧ memRead16 s addr = (if addr.toNat % 2 ≠ 0 then .error ⟨.alignmentError, some addr⟩
      else if s.cfg.endMem < addr.toNat + 1 then .error ⟨.outOfBounds, some addr⟩
      else .ok (s.mem.readByte addr.toNat ++ s.mem.readByte (addr.toNat + 1)))
    ∧ memRead32 s addr = (if addr.toNat % 4 ≠ 0 then .error ⟨.alignmentError, some addr⟩
      else if s.cfg.endMem < addr.toNat + 3 then .error ⟨.outOfBounds, some addr⟩
      else .ok (s.mem.readByte addr.toNat ++ s.mem.readByte (addr.toNat + 1) ++ s.mem.readByte (addr.toNat + 2)
        ++ s.mem.readByte (addr.toNat + 3)))

/-- `MemWrite(addr, n, v)` for n = 1, 2, 4 (R50): alignment first, then bounds; where both pass, the commit writes
byte `i` of the `n` with `v[8(n-i)-1 : 8(n-i-1)]` and no other byte; where one fails, nothing is written. -/
def Obligations.MemWriteChecksThenWritesEachByte : Prop :=
  ∀ (s : State) (addr : Word) (v : Word) (st : Store) (n : Nat),
    ((st = .byte addr (v.setWidth 8) ∧ n = 1) ∨ (st = .half addr (v.setWidth 16) ∧ n = 2) ∨ (st = .word addr v ∧ n = 4)) →
    (addr.toNat % n ≠ 0 → memWrite s st = .error ⟨.alignmentError, some addr⟩)
    ∧ (addr.toNat % n = 0 → s.cfg.endMem < addr.toNat + n - 1 → memWrite s st = .error ⟨.outOfBounds, some addr⟩)
    ∧ (addr.toNat % n = 0 → addr.toNat + n - 1 ≤ s.cfg.endMem →
        ∃ e, memWrite s st = .ok e ∧ (commit e s).regs = s.regs
          ∧ (∀ i, i < n → (commit e s).mem.readByte (addr.toNat + i) = v.extractLsb' (8 * (n - i - 1)) 8)
          ∧ SameMemoryOutside s addr.toNat n (commit e s))

/-- Accesses of different widths see one byte array: the bytes, half-words and word at an address agree (R44, which
the spec derives from R40 and R41).
The byte order of half-words is log entry 29. -/
def Obligations.WordHalfAndByteViewsAgree : Prop :=
  ∀ (m : Memory) (a : Nat),
    m.readByte a = (m.readWord a).extractLsb' 24 8 ∧ m.readByte a = (m.readHalf a).extractLsb' 8 8
      ∧ m.readByte (a + 3) = (m.readWord a).extractLsb' 0 8
      ∧ m.readHalf a = (m.readWord a).extractLsb' 16 16 ∧ m.readHalf (a + 2) = (m.readWord a).extractLsb' 0 16

/-- An effective address whose true sum, of the base read as unsigned and the displacement, is negative lies past
END_MEM (R58; log entry 9). -/
def Obligations.NegativeAddressesAreOutOfBounds : Prop :=
  ∀ (s : State) (rs : RegIdx) (imm : Imm16), s.cfg.wf = true → ((readReg s rs).toNat : Int) + imm.toInt < 0 →
    s.cfg.endMem < (effectiveAddress s rs imm).toNat

/-! ### Register-register ALU and shifts (41_alu_register.md): results and frames -/

/-- `addu`, `subu`, `and`, `or`, `nor` (R117, R119 to R122) complete from every state, for every operand and every
destination, `r0` too: the destination takes the result, every other register and all of memory stay, and the engine
goes on at `pc + 4` (R115, R103; the region check is log entry 8's). -/
def Obligations.WrappingAluInstructionsComplete : Prop :=
  ∀ (s : State) (rs rt rd : RegIdx) (shamt : Shamt),
    (∃ t, exec (.addu rs rt rd shamt) s = .next t
      ∧ RegsWith s rd (BitVec.ofNat 32 ((readReg s rs).toNat + (readReg s rt).toNat)) t
      ∧ SameMemory s t ∧ GoesOnAt s (s.pc + 4#32) t)
    ∧ (∃ t, exec (.subu rs rt rd shamt) s = .next t
      ∧ RegsWith s rd (BitVec.ofInt 32 ((readReg s rs).toNat - (readReg s rt).toNat)) t
      ∧ SameMemory s t ∧ GoesOnAt s (s.pc + 4#32) t)
    ∧ (∃ t, exec (.and rs rt rd shamt) s = .next t ∧ RegsWith s rd (readReg s rs &&& readReg s rt) t
      ∧ SameMemory s t ∧ GoesOnAt s (s.pc + 4#32) t)
    ∧ (∃ t, exec (.or rs rt rd shamt) s = .next t ∧ RegsWith s rd (readReg s rs ||| readReg s rt) t
      ∧ SameMemory s t ∧ GoesOnAt s (s.pc + 4#32) t)
    ∧ (∃ t, exec (.nor rs rt rd shamt) s = .next t ∧ RegsWith s rd (~~~(readReg s rs ||| readReg s rt)) t
      ∧ SameMemory s t ∧ GoesOnAt s (s.pc + 4#32) t)

/-- `sll` and `srl` (R125, R126) complete from every state: `rt` takes the value of `rs` shifted with zero fill, and
`rd` is ignored; every other register and all of memory stay.
The halt check of STATIC_DATA after the instruction is log entry 8's. -/
def Obligations.ShiftsComplete : Prop :=
  ∀ (s : State) (rs rt rd : RegIdx) (shamt : Shamt),
    (∃ t, exec (.sll rs rt rd shamt) s = .next t
      ∧ RegsWith s rt (BitVec.ofNat 32 ((readReg s rs).toNat * 2 ^ shamt.toNat)) t
      ∧ SameMemory s t ∧ GoesOnAt s (s.pc + 4#32) t)
    ∧ (∃ t, exec (.srl rs rt rd shamt) s = .next t
      ∧ RegsWith s rt (BitVec.ofNat 32 ((readReg s rs).toNat / 2 ^ shamt.toNat)) t
      ∧ SameMemory s t ∧ GoesOnAt s (s.pc + 4#32) t)

/-- `slt`, `sltu`, `slti`, `sltiu` (R123, R124, R135, R136) complete from every state and write 1 or 0 by the signed
or unsigned comparison; the immediate of `slti` is read as signed, that of `sltiu` as unsigned (zero-extended).
The halt check of STATIC_DATA after the instruction is log entry 8's. -/
def Obligations.ComparisonsComplete : Prop :=
  ∀ (s : State) (rs rt rd : RegIdx) (shamt : Shamt) (imm : Imm16),
    (∃ t, exec (.slt rs rt rd shamt) s = .next t
      ∧ RegsWith s rd (if (readReg s rs).toInt < (readReg s rt).toInt then 1#32 else 0#32) t
      ∧ SameMemory s t ∧ GoesOnAt s (s.pc + 4#32) t)
    ∧ (∃ t, exec (.sltu rs rt rd shamt) s = .next t
      ∧ RegsWith s rd (if (readReg s rs).toNat < (readReg s rt).toNat then 1#32 else 0#32) t
      ∧ SameMemory s t ∧ GoesOnAt s (s.pc + 4#32) t)
    ∧ (∃ t, exec (.slti rs rt imm) s = .next t
      ∧ RegsWith s rt (if (readReg s rs).toInt < imm.toInt then 1#32 else 0#32) t
      ∧ SameMemory s t ∧ GoesOnAt s (s.pc + 4#32) t)
    ∧ (∃ t, exec (.sltiu rs rt imm) s = .next t
      ∧ RegsWith s rt (if (readReg s rs).toNat < imm.toNat then 1#32 else 0#32) t
      ∧ SameMemory s t ∧ GoesOnAt s (s.pc + 4#32) t)

/-- Every comparison writes exactly 1 or 0 (R129): its destination, where it is not `r0`, holds one of the two. -/
def Obligations.ComparisonsWriteOneOrZero : Prop :=
  ∀ (i : Instr) (s : State) (d : RegIdx), i.op ∈ [.slt, .sltu, .slti, .sltiu] → destination i = some d → d ≠ 0#5 →
    ∃ t, exec i s = .next t ∧ (readReg t d = 0x00000001#32 ∨ readReg t d = 0x00000000#32)

/-- `add`, `sub`, `addi` (R116, R118, R131) complete wherever the exact signed result fits 32 bits: the destination
takes it, every other register and all of memory stay.
The halt check of STATIC_DATA after the instruction is log entry 8's. -/
def Obligations.SignedArithmeticCompletesInRange : Prop :=
  ∀ (s : State) (rs rt rd : RegIdx) (shamt : Shamt) (imm : Imm16) (n : Int), -2 ^ 31 ≤ n → n ≤ 2 ^ 31 - 1 →
    (n = (readReg s rs).toInt + (readReg s rt).toInt →
      ∃ t, exec (.add rs rt rd shamt) s = .next t ∧ RegsWith s rd (BitVec.ofInt 32 n) t ∧ SameMemory s t
        ∧ GoesOnAt s (s.pc + 4#32) t)
    ∧ (n = (readReg s rs).toInt - (readReg s rt).toInt →
      ∃ t, exec (.sub rs rt rd shamt) s = .next t ∧ RegsWith s rd (BitVec.ofInt 32 n) t ∧ SameMemory s t
        ∧ GoesOnAt s (s.pc + 4#32) t)
    ∧ (n = (readReg s rs).toInt + imm.toInt →
      ∃ t, exec (.addi rs rt imm) s = .next t ∧ RegsWith s rt (BitVec.ofInt 32 n) t ∧ SameMemory s t
        ∧ GoesOnAt s (s.pc + 4#32) t)

/-- `add`, `sub`, `addi` fault with `ArithmeticOverflow` wherever the exact signed result does not fit 32 bits,
whatever the destination, `r0` too (R116, R118, R127, R131; log entry 17); nothing but status and record changes.
That the pc stays is log entry 11's.
That `sub` is a signed form, and so faults, is the spec's own inference (R118), log entry 30. -/
def Obligations.SignedArithmeticFaultsOutOfRange : Prop :=
  ∀ (s : State) (rs rt rd : RegIdx) (shamt : Shamt) (imm : Imm16) (n : Int), (n < -2 ^ 31 ∨ 2 ^ 31 - 1 < n) →
    (n = (readReg s rs).toInt + (readReg s rt).toInt →
      ∃ t, exec (.add rs rt rd shamt) s = .next t
        ∧ FaultedAs s ⟨.arithmeticOverflow, s.pc, some (encode (.add rs rt rd shamt)), none⟩ t)
    ∧ (n = (readReg s rs).toInt - (readReg s rt).toInt →
      ∃ t, exec (.sub rs rt rd shamt) s = .next t
        ∧ FaultedAs s ⟨.arithmeticOverflow, s.pc, some (encode (.sub rs rt rd shamt)), none⟩ t)
    ∧ (n = (readReg s rs).toInt + imm.toInt →
      ∃ t, exec (.addi rs rt imm) s = .next t
        ∧ FaultedAs s ⟨.arithmeticOverflow, s.pc, some (encode (.addi rs rt imm)), none⟩ t)

/-! ### Register-immediate ALU (42_alu_immediate.md) -/

/-- `addiu`, `andi`, `ori`, `lui` (R132 to R134, R137) complete from every state. The zero extension of `andi` and
`ori` is the spec's choice from general knowledge (log entry 5), and so is the value of `lui` (log entry 6).
The halt check of STATIC_DATA after the instruction is log entry 8's. -/
def Obligations.ImmediateAluInstructionsComplete : Prop :=
  ∀ (s : State) (rs rt : RegIdx) (imm : Imm16),
    (∃ t, exec (.addiu rs rt imm) s = .next t
      ∧ RegsWith s rt (BitVec.ofInt 32 ((readReg s rs).toNat + imm.toInt)) t
      ∧ SameMemory s t ∧ GoesOnAt s (s.pc + 4#32) t)
    ∧ (∃ t, exec (.andi rs rt imm) s = .next t ∧ RegsWith s rt (readReg s rs &&& (0x0000#16 ++ imm)) t
      ∧ SameMemory s t ∧ GoesOnAt s (s.pc + 4#32) t)
    ∧ (∃ t, exec (.ori rs rt imm) s = .next t ∧ RegsWith s rt (readReg s rs ||| (0x0000#16 ++ imm)) t
      ∧ SameMemory s t ∧ GoesOnAt s (s.pc + 4#32) t)
    ∧ (∃ t, exec (.lui rs rt imm) s = .next t ∧ RegsWith s rt (BitVec.ofNat 32 (imm.toNat * 2 ^ 16)) t
      ∧ SameMemory s t ∧ GoesOnAt s (s.pc + 4#32) t)

/-! ### Control transfer (43_control_transfer.md) -/

/-- `jr`, `j`, `jal` (R141, R144, R145) complete from every state: `jr` goes to the register's value unchanged (log
entry 10), `j` and `jal` to `pc[31:28] ‖ address ‖ 00`; `jal` alone writes a register, `pc + 4` into `r31`.
The halt check of STATIC_DATA after the instruction is log entry 8's. -/
def Obligations.JumpsComplete : Prop :=
  ∀ (s : State) (rs rt rd : RegIdx) (shamt : Shamt) (address : Target26),
    (∃ t, exec (.jr rs rt rd shamt) s = .next t ∧ SameRegs s t ∧ SameMemory s t ∧ GoesOnAt s (readReg s rs) t)
    ∧ (∃ t, exec (.j address) s = .next t ∧ SameRegs s t ∧ SameMemory s t
      ∧ GoesOnAt s (s.pc.extractLsb' 28 4 ++ address ++ 0b00#2) t)
    ∧ (∃ t, exec (.jal address) s = .next t ∧ RegsWith s 31#5 (s.pc + 4#32) t ∧ SameMemory s t
      ∧ GoesOnAt s (s.pc.extractLsb' 28 4 ++ address ++ 0b00#2) t)

/-- `beq` and `bne` (R142, R143) complete from every state: with immediate `k` the pc changes by `4 + 4k` modulo 2^32
if the condition holds and by 4 if not; no register and no byte changes (R140; the wrap is log entry 9's).
The halt check of STATIC_DATA after the instruction is log entry 8's. -/
def Obligations.BranchesComplete : Prop :=
  ∀ (s : State) (rs rt : RegIdx) (imm : Imm16),
    (∃ t, exec (.beq rs rt imm) s = .next t ∧ SameRegs s t ∧ SameMemory s t
      ∧ GoesOnAt s (if readReg s rs = readReg s rt then BitVec.ofInt 32 (s.pc.toNat + (4 + 4 * imm.toInt))
          else s.pc + 4#32) t)
    ∧ (∃ t, exec (.bne rs rt imm) s = .next t ∧ SameRegs s t ∧ SameMemory s t
      ∧ GoesOnAt s (if readReg s rs ≠ readReg s rt then BitVec.ofInt 32 (s.pc.toNat + (4 + 4 * imm.toInt))
          else s.pc + 4#32) t)

/-! ### Loads and stores (44_load_store.md) -/

/-- `lbu`, `lhu`, `lw` (R151 to R153) complete wherever the effective address is aligned for the width and in bounds:
the destination takes the bytes at that address, big-endian and zero-extended (`r0` discards them, R159), every other
register and all of memory stay.
The halt check of STATIC_DATA after the instruction is log entry 8's.
That a load into `r0` is performed is log entry 18, the byte order of half-words log entry 29. -/
def Obligations.LoadsComplete : Prop :=
  ∀ (s : State) (rs rt : RegIdx) (imm : Imm16) (a : Nat), a = (effectiveAddress s rs imm).toNat →
    (a ≤ s.cfg.endMem →
      ∃ t, exec (.lbu rs rt imm) s = .next t ∧ RegsWith s rt ((s.mem.readByte a).setWidth 32) t ∧ SameMemory s t
        ∧ GoesOnAt s (s.pc + 4#32) t)
    ∧ (a % 2 = 0 → a + 1 ≤ s.cfg.endMem →
      ∃ t, exec (.lhu rs rt imm) s = .next t
        ∧ RegsWith s rt ((s.mem.readByte a ++ s.mem.readByte (a + 1)).setWidth 32) t ∧ SameMemory s t
        ∧ GoesOnAt s (s.pc + 4#32) t)
    ∧ (a % 4 = 0 → a + 3 ≤ s.cfg.endMem →
      ∃ t, exec (.lw rs rt imm) s = .next t
        ∧ RegsWith s rt (s.mem.readByte a ++ s.mem.readByte (a + 1) ++ s.mem.readByte (a + 2) ++ s.mem.readByte (a + 3)) t
        ∧ SameMemory s t ∧ GoesOnAt s (s.pc + 4#32) t)

/-- `sb`, `sh`, `sw` (R154 to R156, R160) complete wherever the effective address is aligned for the width and in
bounds: the low 1, 2 or 4 bytes of `x[rt]` stand big-endian at that address, every other byte and every register stay.
The halt check of STATIC_DATA after the instruction is log entry 8's.
The byte order of half-words is log entry 29. -/
def Obligations.StoresComplete : Prop :=
  ∀ (s : State) (rs rt : RegIdx) (imm : Imm16) (a : Nat), a = (effectiveAddress s rs imm).toNat →
    (a ≤ s.cfg.endMem →
      ∃ t, exec (.sb rs rt imm) s = .next t ∧ t.mem.readByte a = (readReg s rt).extractLsb' 0 8
        ∧ SameMemoryOutside s a 1 t ∧ SameRegs s t ∧ GoesOnAt s (s.pc + 4#32) t)
    ∧ (a % 2 = 0 → a + 1 ≤ s.cfg.endMem →
      ∃ t, exec (.sh rs rt imm) s = .next t ∧ t.mem.readByte a = (readReg s rt).extractLsb' 8 8
        ∧ t.mem.readByte (a + 1) = (readReg s rt).extractLsb' 0 8
        ∧ SameMemoryOutside s a 2 t ∧ SameRegs s t ∧ GoesOnAt s (s.pc + 4#32) t)
    ∧ (a % 4 = 0 → a + 3 ≤ s.cfg.endMem →
      ∃ t, exec (.sw rs rt imm) s = .next t ∧ t.mem.readByte a = (readReg s rt).extractLsb' 24 8
        ∧ t.mem.readByte (a + 1) = (readReg s rt).extractLsb' 16 8
        ∧ t.mem.readByte (a + 2) = (readReg s rt).extractLsb' 8 8
        ∧ t.mem.readByte (a + 3) = (readReg s rt).extractLsb' 0 8
        ∧ SameMemoryOutside s a 4 t ∧ SameRegs s t ∧ GoesOnAt s (s.pc + 4#32) t)

/-- `lhu`, `lw`, `sh`, `sw` at a misaligned effective address fault with `AlignmentError` and that address, out of
bounds or not, whatever the destination (R45, R46, R48, R159); nothing but status and record changes.
That the pc stays is log entry 11's.
That a load into `r0` is performed, and so faults, is the spec's decision D18 (R159), log entry 18. -/
def Obligations.MisalignedAccessesFault : Prop :=
  ∀ (s : State) (rs rt : RegIdx) (imm : Imm16) (ea : Word), ea = effectiveAddress s rs imm →
    (ea.toNat % 2 ≠ 0 →
      (∃ t, exec (.lhu rs rt imm) s = .next t
        ∧ FaultedAs s ⟨.alignmentError, s.pc, some (encode (.lhu rs rt imm)), some ea⟩ t)
      ∧ (∃ t, exec (.sh rs rt imm) s = .next t
        ∧ FaultedAs s ⟨.alignmentError, s.pc, some (encode (.sh rs rt imm)), some ea⟩ t))
    ∧ (ea.toNat % 4 ≠ 0 →
      (∃ t, exec (.lw rs rt imm) s = .next t
        ∧ FaultedAs s ⟨.alignmentError, s.pc, some (encode (.lw rs rt imm)), some ea⟩ t)
      ∧ (∃ t, exec (.sw rs rt imm) s = .next t
        ∧ FaultedAs s ⟨.alignmentError, s.pc, some (encode (.sw rs rt imm)), some ea⟩ t))

/-- An aligned access of any load or store past END_MEM faults with `OutOfBounds` and the effective address (R47,
R151 to R156); nothing but status and record changes, so no partial write.
That the pc stays is log entry 11's.
That a load into `r0` is performed, and so faults, is the spec's decision D18 (R159), log entry 18. -/
def Obligations.AccessesPastTheEndFault : Prop :=
  ∀ (s : State) (rs rt : RegIdx) (imm : Imm16) (ea : Word), ea = effectiveAddress s rs imm →
    (s.cfg.endMem < ea.toNat →
      (∃ t, exec (.lbu rs rt imm) s = .next t
        ∧ FaultedAs s ⟨.outOfBounds, s.pc, some (encode (.lbu rs rt imm)), some ea⟩ t)
      ∧ (∃ t, exec (.sb rs rt imm) s = .next t
        ∧ FaultedAs s ⟨.outOfBounds, s.pc, some (encode (.sb rs rt imm)), some ea⟩ t))
    ∧ (ea.toNat % 2 = 0 → s.cfg.endMem < ea.toNat + 1 →
      (∃ t, exec (.lhu rs rt imm) s = .next t
        ∧ FaultedAs s ⟨.outOfBounds, s.pc, some (encode (.lhu rs rt imm)), some ea⟩ t)
      ∧ (∃ t, exec (.sh rs rt imm) s = .next t
        ∧ FaultedAs s ⟨.outOfBounds, s.pc, some (encode (.sh rs rt imm)), some ea⟩ t))
    ∧ (ea.toNat % 4 = 0 → s.cfg.endMem < ea.toNat + 3 →
      (∃ t, exec (.lw rs rt imm) s = .next t
        ∧ FaultedAs s ⟨.outOfBounds, s.pc, some (encode (.lw rs rt imm)), some ea⟩ t)
      ∧ (∃ t, exec (.sw rs rt imm) s = .next t
        ∧ FaultedAs s ⟨.outOfBounds, s.pc, some (encode (.sw rs rt imm)), some ea⟩ t))

/-- A faulting load writes no register and a faulting store writes no byte; the pc stays; the record's address is the
effective address (R161). -/
def Obligations.FaultingLoadsAndStoresHaveNoEffect : Prop :=
  ∀ (i : Instr) (s t : State) (rs rt : RegIdx) (imm : Imm16),
    i ∈ [.lbu rs rt imm, .lhu rs rt imm, .lw rs rt imm, .sb rs rt imm, .sh rs rt imm, .sw rs rt imm] →
    s.status = .running → exec i s = .next t → t.status = .faulted →
      t.regs = s.regs ∧ t.mem = s.mem ∧ t.pc = s.pc
        ∧ ∃ f, t.fault = some f ∧ f.addr = some (effectiveAddress s rs imm)

/-- A load at the address of a store, right after it, gives the value stored: the word, or the low half-word or byte
zero-extended (the round-trip law W5 of 95_test_vectors.md; R156, R60, R195). Both instructions complete. -/
def Obligations.StoredValuesLoadBack : Prop :=
  ∀ (s : State) (rs rt rt' : RegIdx) (imm : Imm16) (a : Nat), a = (effectiveAddress s rs imm).toNat → rt' ≠ 0#5 →
    (a ≤ s.cfg.endMem → ∃ t u, exec (.sb rs rt imm) s = .next t ∧ exec (.lbu rs rt' imm) t = .next u
      ∧ readReg u rt' = ((readReg s rt).setWidth 8).setWidth 32)
    ∧ (a % 2 = 0 → a + 1 ≤ s.cfg.endMem → ∃ t u, exec (.sh rs rt imm) s = .next t
      ∧ exec (.lhu rs rt' imm) t = .next u ∧ readReg u rt' = ((readReg s rt).setWidth 16).setWidth 32)
    ∧ (a % 4 = 0 → a + 3 ≤ s.cfg.endMem → ∃ t u, exec (.sw rs rt imm) s = .next t
      ∧ exec (.lw rs rt' imm) t = .next u ∧ readReg u rt' = readReg s rt)

/-- A store is seen by the next fetch of the address, be it the very next step (R196): in any state with the memory
the store left, a fetch gives the stored byte wherever the store wrote and the old byte elsewhere.
Which byte of a half-word `sh` stores first is log entry 29. -/
def Obligations.StoresAreSeenByTheNextFetch : Prop :=
  ∀ (i : Instr) (n : Nat) (s : State) (rs rt : RegIdx) (imm : Imm16) (a : Nat),
    (i, n) ∈ [(.sb rs rt imm, 1), (.sh rs rt imm, 2), (.sw rs rt imm, 4)] →
    a = (effectiveAddress s rs imm).toNat → a % n = 0 → a + n - 1 ≤ s.cfg.endMem →
    ∃ t, exec i s = .next t ∧
      ∀ u : State, u.mem = t.mem → u.cfg = t.cfg → u.pc.toNat % 4 = 0 → u.pc.toNat + 3 ≤ u.cfg.endMem →
        ∃ w, fetch u = .ok w ∧ ∀ k, k < 4 →
          w.extractLsb' (8 * (3 - k)) 8 =
            if a ≤ u.pc.toNat + k ∧ u.pc.toNat + k < a + n then
              (readReg s rt).extractLsb' (8 * (n - 1 - (u.pc.toNat + k - a))) 8
            else s.mem.readByte (u.pc.toNat + k)

/-! ### The halt sentinel and the step (40_fetch_loop.md) -/

/-- `halt` completes from every state: the engine is Halted, with registers, memory, pc and fault record as they were
(R97; that the pc stays is log entry 12's). -/
def Obligations.HaltStopsWithThePcKept : Prop :=
  ∀ s : State, ∃ t, exec .halt s = .next t ∧ t.status = .halted ∧ t.regs = s.regs ∧ t.mem = s.mem ∧ t.pc = s.pc
    ∧ t.fault = s.fault ∧ t.cfg = s.cfg

/-- A running engine whose four bytes at an aligned in-bounds pc decode to an instruction steps as `exec` of that
instruction, from the same state (R96 to R99). The configuration meets R9, outside which there is no machine (log
entry 24). -/
def Obligations.StepRunsTheDecodedInstruction : Prop :=
  ∀ (s : State) (i : Instr), s.cfg.wf = true → s.status = .running → s.pc.toNat % 4 = 0 →
    s.pc.toNat + 3 ≤ s.cfg.endMem →
    decodeBytes [s.mem.readByte s.pc.toNat, s.mem.readByte (s.pc.toNat + 1), s.mem.readByte (s.pc.toNat + 2),
      s.mem.readByte (s.pc.toNat + 3)] = .ok i →
    step s = exec i s

/-- A fetch from a misaligned pc, or from an aligned pc past END_MEM, faults with no word and the pc as the address;
registers, memory and pc stay (R96). -/
def Obligations.FetchFaultsAreRecordedWithoutAWord : Prop :=
  ∀ s : State, s.cfg.wf = true → s.status = .running →
    (s.pc.toNat % 4 ≠ 0 → ∃ t, step s = .next t ∧ FaultedAs s ⟨.alignmentError, s.pc, none, some s.pc⟩ t)
    ∧ (s.pc.toNat % 4 = 0 → s.cfg.endMem < s.pc.toNat + 3 →
        ∃ t, step s = .next t ∧ FaultedAs s ⟨.outOfBounds, s.pc, none, some s.pc⟩ t)

/-- A word with no mapped operation faults with `IllegalInstruction` and that word under the policy `illegal`, and
only advances the pc under `nop` (R80, R98). Both policies are the spec's parameter (log entry 3).
The halt check of STATIC_DATA after the instruction is log entry 8's.
That the pc stays after the fault is log entry 11. -/
def Obligations.UnmappedWordsFollowThePolicy : Prop :=
  ∀ (s : State) (w : Word) (e : DecodeError), s.cfg.wf = true → s.status = .running → fetch s = .ok w →
    decode w = .error e →
    (s.cfg.unmapped = .illegal →
      ∃ t, step s = .next t ∧ FaultedAs s ⟨.illegalInstruction, s.pc, some w, none⟩ t)
    ∧ (s.cfg.unmapped = .nop →
      ∃ t, step s = .next t ∧ SameRegs s t ∧ SameMemory s t ∧ GoesOnAt s (s.pc + 4#32) t)

/-- A step in `Halted` or `Faulted` changes nothing, and the host's `step` reports the same outcome again (R95, R108;
log entry 14). -/
def Obligations.TerminalStepsChangeNothing : Prop :=
  ∀ s : State, s.cfg.wf = true → s.status ≠ .running → step s = .next s ∧ hostStep s = withReport s

/-- Faults are precise: a step of a running engine that ends Faulted has changed nothing but status and record (R167;
the model's own note that a step has run is beside them).
That the pc stays is log entry 11's. -/
def Obligations.FaultsArePrecise : Prop :=
  ∀ s t : State, s.status = .running → step s = .next t → t.status = .faulted → ∃ f, FaultedAs s f t

/-- Only `sb`, `sh` and `sw` change memory (R52: "No other instruction touches memory", but for the loads' reads). -/
def Obligations.OnlyStoresChangeMemory : Prop :=
  ∀ (i : Instr) (s t : State), storesMemory i.op = false → exec i s = .next t → t.mem = s.mem

/-- No instruction changes a register other than its destination (the table of R24, which the spec derives). -/
def Obligations.OnlyTheDestinationRegisterChanges : Prop :=
  ∀ (i : Instr) (s t : State) (r : RegIdx), exec i s = .next t → destination i ≠ some r → readReg t r = readReg s r

/-- Only `jr`, `j`, `jal`, `beq` and `bne` set the pc: any other instruction that does not fault advances it by 4, and
the sentinel leaves it (R103, R97; log entries 7 and 12). -/
def Obligations.OnlyControlTransfersSetThePc : Prop :=
  ∀ (i : Instr) (s t : State), i.op ∉ [.jr, .j, .jal, .beq, .bne, .halt] → s.status = .running →
    exec i s = .next t → t.status ≠ .faulted → t.pc = s.pc + 4#32

/-- From an aligned pc every instruction but `jr` leaves an aligned pc (R147, R27, which the spec derives).
The pc after a fault or the sentinel is log entries 11 and 12. -/
def Obligations.OnlyJrMakesAMisalignedPc : Prop :=
  ∀ (i : Instr) (s t : State), s.pc.toNat % 4 = 0 → i.op ≠ .jr → exec i s = .next t → t.pc.toNat % 4 = 0

/-- Memory outside what an instruction loads or stores does not matter to it: an instruction other than a load does
the same to registers, pc, status and record whatever the memory holds (R92, R99: its rule reads no memory). -/
def Obligations.InstructionsButLoadsDoNotReadMemory : Prop :=
  ∀ (i : Instr) (s : State) (m : Memory), i.op ∉ [.lbu, .lhu, .lw] →
    ∃ t u, exec i s = .next t ∧ exec i { s with mem := m } = .next u ∧ u.regs = t.regs ∧ u.pc = t.pc
      ∧ u.status = t.status ∧ u.fault = t.fault

/-- Under the constraints of R9 every step answers a next state: no instruction, no word, no pc and no memory makes
the machine stop otherwise than by the statuses of R31.
That the spec's faults are next states is log entry 21, the stop outside R9 log entry 24. -/
def Obligations.EveryStepAnswersANextState : Prop :=
  ∀ s : State, s.cfg.wf = true → ∃ t, step s = .next t

/-- No step changes the configuration, which the model carries in its state (R20: "is not state"; log entry 1). -/
def Obligations.NoStepChangesTheConfiguration : Prop :=
  ∀ s t : State, step s = .next t → t.cfg = s.cfg

/-! ### The invariant of every reachable state -/

/-- The invariant holds right after reset, at `State.reset` and for every configuration that meets R9.
The configuration of `State.reset` is log entry 2's. -/
def Obligations.InvariantHoldsAtReset : Prop :=
  Inv State.reset ∧ ∀ c : Config, c.wf = true → Inv (State.resetWith c)

/-- Every step keeps the invariant: canonical memory within 0 .. END_MEM, register 0 zero, a running pc below
STATIC_DATA, the two kinds of Halted, a legal record exactly when Faulted (R22, R29, R32, R57, R105, R166).
The canonical form is log entry 31, the slot of register 0 log entry 23, the pc after a fault or the sentinel log
entries 11 and 12, the halt check log entry 8, the note `fresh` log entry 15. -/
def Obligations.EveryStepKeepsTheInvariant : Prop :=
  ∀ s t : State, Inv s → step s = .next t → Inv t

/-- In every state that meets the invariant, a running engine's aligned fetch succeeds: `OutOfBounds` cannot arise in
fetch (R57, R104 with the constraints of R9).
The halt check of STATIC_DATA after the instruction is log entry 8's. -/
def Obligations.RunningFetchesStayInMemory : Prop :=
  ∀ s : State, Inv s → s.status = .running → s.pc.toNat % 4 = 0 → ∃ w, fetch s = .ok w

/-! ### The host's operations -/

/-- A program over either size bound is `ProgramTooLarge`, and the machine is the one it was (R190). -/
def Obligations.FailedLoadsChangeNothing : Prop :=
  ∀ (p : Program) (s : State), s.cfg.wf = true → s.fresh = true →
    (s.cfg.staticData - s.cfg.pcStart < p.instructions.length * 4 ∨
      s.cfg.dynamicData - s.cfg.staticData < p.data.length * 4) →
    load p s = .next (.programTooLarge, s)

/-- A program within both bounds loads: each instruction word stands big-endian at `PC_START + 4i` and each data word
at `STATIC_DATA + 4j`, none of these writes can fault, every byte no word covers keeps its value, which is zero where
memory is as reset left it, and nothing but memory changes (R189, R192). -/
def Obligations.LoadsPlaceEveryWord : Prop :=
  ∀ (p : Program) (s : State), s.cfg.wf = true → s.fresh = true →
    p.instructions.length * 4 ≤ s.cfg.staticData - s.cfg.pcStart →
    p.data.length * 4 ≤ s.cfg.dynamicData - s.cfg.staticData →
    ∃ m, load p s = .next (.ok, { s with mem := m })
      ∧ (∀ (i : Nat) (h : i < p.instructions.length),
          m.readWord (s.cfg.pcStart + 4 * i) = p.instructions[i]
            ∧ checkAccess s.cfg (BitVec.ofNat 32 (s.cfg.pcStart + 4 * i)) 4 = .ok ())
      ∧ (∀ (j : Nat) (h : j < p.data.length),
          m.readWord (s.cfg.staticData + 4 * j) = p.data[j]
            ∧ checkAccess s.cfg (BitVec.ofNat 32 (s.cfg.staticData + 4 * j)) 4 = .ok ())
      ∧ (∀ a, (a < s.cfg.pcStart ∨ s.cfg.pcStart + 4 * p.instructions.length ≤ a) →
          (a < s.cfg.staticData ∨ s.cfg.staticData + 4 * p.data.length ≤ a) →
          m.readByte a = s.mem.readByte a ∧ (s.mem = (State.resetWith s.cfg).mem → m.readByte a = 0x00#8))

/-- After any step of a running engine a `load` is refused (R191; log entry 15). -/
def Obligations.LoadsAfterAStepAreRefused : Prop :=
  ∀ (p : Program) (s t : State), s.status = .running → step s = .next t → load p t = .refused .loadAfterStep

/-- A machine with no program runs over zero memory and halts at STATIC_DATA after `(STATIC_DATA - PC_START) / 4`
steps, with every register zero (R193, which the spec derives), for every configuration that meets R9.
The halt check of STATIC_DATA after the instruction is log entry 8's.
That word 0 is `sll` is log entry 4, the note `fresh` in the end state log entry 15, the fuel log entry 22. The step that
these runs repeat is `ZeroWordsOnlyAdvanceThePc`. -/
def Obligations.EmptyMachineHaltsAtStaticData : Prop :=
  ∀ c : Config, c.wf = true →
    (∀ k, k < (c.staticData - c.pcStart) / 4 → ∃ t, hostRun k (State.resetWith c) = .next (.running, t))
    ∧ hostRun ((c.staticData - c.pcStart) / 4) (State.resetWith c) =
        .next (.halted, { State.resetWith c with
          pc := BitVec.ofNat 32 c.staticData, status := .halted, fresh := false })

/-- A run that has ended stays as it ended with any more fuel (R95, R107): running out of fuel is told apart from
Halted (log entry 22). -/
def Obligations.EndedRunsIgnoreMoreFuel : Prop :=
  ∀ (n k : Nat) (s t : State) (o : StepOutcome), hostRun n s = .next (o, t) → o ≠ .running →
    hostRun (n + k) s = .next (o, t)

/-- A byte range within memory is observed byte by byte, and a word view is the big-endian join with no alignment
requirement; a range past END_MEM is refused (R109; log entry 19). -/
def Obligations.ObservationsReadMemoryAsItIs : Prop :=
  ∀ (s : State) (a k : Nat),
    (a + k ≤ s.cfg.endMem + 1 → ∃ bs, observeBytes s a k = .next bs ∧ bs.length = k
      ∧ ∀ i, i < k → bs[i]? = some (s.mem.readByte (a + i)))
    ∧ (s.cfg.endMem + 1 < a + k → observeBytes s a k = .refused .observationPastEnd)
    ∧ (a + 3 ≤ s.cfg.endMem → observeWord s a = .next (s.mem.readByte a ++ s.mem.readByte (a + 1)
        ++ s.mem.readByte (a + 2) ++ s.mem.readByte (a + 3)))
    ∧ (s.cfg.endMem < a + 3 → observeWord s a = .refused .observationPastEnd)

/-! ### The step over a zero word -/

/-- From every running state, reached or not, whose four bytes at an aligned pc below STATIC_DATA are zero, a step goes
on at `pc + 4` with every register and every byte as before (R83, which the spec derives; R103, R104; the step of R193).
That word 0 is `sll` is log entry 4, the halt check of STATIC_DATA log entry 8; the configuration meets R9 (log entry
24). -/
def Obligations.ZeroWordsOnlyAdvanceThePc : Prop :=
  ∀ s : State, s.cfg.wf = true → s.status = .running → s.pc.toNat % 4 = 0 → s.pc.toNat < s.cfg.staticData →
    (∀ k, k < 4 → s.mem.readByte (s.pc.toNat + k) = 0x00#8) →
    ∃ t, step s = .next t ∧ SameRegs s t ∧ SameMemory s t ∧ GoesOnAt s (s.pc + 4#32) t
end

