-- ==== Sys2Proof/Laws/Decode.lean ====
section
/-! SUPPORT. The fields of an encoded word, a word from its fields, and the masks of R78. -/

namespace Sys2Proof

/-! ### Concatenation and extraction as arithmetic -/

theorem toNat_append_eq {m n : Nat} (x : BitVec m) (y : BitVec n) :
    (x ++ y).toNat = x.toNat * 2 ^ n + y.toNat := by
  rw [BitVec.toNat_append, ← Nat.shiftLeft_add_eq_or_of_lt y.isLt, Nat.shiftLeft_eq]

theorem toNat_extract {n : Nat} (w : BitVec n) (k l : Nat) :
    (w.extractLsb' k l).toNat = w.toNat / 2 ^ k % 2 ^ l := by
  simp [Nat.shiftRight_eq_div_pow]

theorem toNat_encodeR (rs rt rd : RegIdx) (shamt : Shamt) (func : Code6) :
    (encodeR rs rt rd shamt func).toNat
      = rs.toNat * 2 ^ 21 + rt.toNat * 2 ^ 16 + rd.toNat * 2 ^ 11 + shamt.toNat * 2 ^ 6 + func.toNat := by
  unfold encodeR
  simp only [toNat_append_eq, BitVec.toNat_ofNat]
  omega

theorem toNat_encodeI (opcode : Code6) (rs rt : RegIdx) (imm : Imm16) :
    (encodeI opcode rs rt imm).toNat
      = opcode.toNat * 2 ^ 26 + rs.toNat * 2 ^ 21 + rt.toNat * 2 ^ 16 + imm.toNat := by
  unfold encodeI
  simp only [toNat_append_eq]
  omega

theorem toNat_encodeJ (opcode : Code6) (address : Target26) :
    (encodeJ opcode address).toNat = opcode.toNat * 2 ^ 26 + address.toNat := by
  unfold encodeJ
  simp only [toNat_append_eq]

/-! ### The fields of an encoded word (R66, R67) -/

section RFormat

variable (rs rt rd : RegIdx) (shamt : Shamt) (func : Code6)

@[simp] theorem opcodeOf_encodeR : opcodeOf (encodeR rs rt rd shamt func) = 0x00#6 := by
  apply BitVec.eq_of_toNat_eq
  have := rs.isLt; have := rt.isLt; have := rd.isLt; have := shamt.isLt; have := func.isLt
  simp only [opcodeOf, toNat_extract, toNat_encodeR, BitVec.toNat_ofNat]; omega

@[simp] theorem rsOf_encodeR : rsOf (encodeR rs rt rd shamt func) = rs := by
  apply BitVec.eq_of_toNat_eq
  have := rs.isLt; have := rt.isLt; have := rd.isLt; have := shamt.isLt; have := func.isLt
  simp only [rsOf, toNat_extract, toNat_encodeR]; omega

@[simp] theorem rtOf_encodeR : rtOf (encodeR rs rt rd shamt func) = rt := by
  apply BitVec.eq_of_toNat_eq
  have := rs.isLt; have := rt.isLt; have := rd.isLt; have := shamt.isLt; have := func.isLt
  simp only [rtOf, toNat_extract, toNat_encodeR]; omega

@[simp] theorem rdOf_encodeR : rdOf (encodeR rs rt rd shamt func) = rd := by
  apply BitVec.eq_of_toNat_eq
  have := rs.isLt; have := rt.isLt; have := rd.isLt; have := shamt.isLt; have := func.isLt
  simp only [rdOf, toNat_extract, toNat_encodeR]; omega

@[simp] theorem shamtOf_encodeR : shamtOf (encodeR rs rt rd shamt func) = shamt := by
  apply BitVec.eq_of_toNat_eq
  have := rs.isLt; have := rt.isLt; have := rd.isLt; have := shamt.isLt; have := func.isLt
  simp only [shamtOf, toNat_extract, toNat_encodeR]; omega

@[simp] theorem funcOf_encodeR : funcOf (encodeR rs rt rd shamt func) = func := by
  apply BitVec.eq_of_toNat_eq
  have := rs.isLt; have := rt.isLt; have := rd.isLt; have := shamt.isLt; have := func.isLt
  simp only [funcOf, toNat_extract, toNat_encodeR]; omega

end RFormat

section IFormat

variable (opcode : Code6) (rs rt : RegIdx) (imm : Imm16)

@[simp] theorem opcodeOf_encodeI : opcodeOf (encodeI opcode rs rt imm) = opcode := by
  apply BitVec.eq_of_toNat_eq
  have := rs.isLt; have := rt.isLt; have := opcode.isLt; have := imm.isLt
  simp only [opcodeOf, toNat_extract, toNat_encodeI]; omega

@[simp] theorem rsOf_encodeI : rsOf (encodeI opcode rs rt imm) = rs := by
  apply BitVec.eq_of_toNat_eq
  have := rs.isLt; have := rt.isLt; have := opcode.isLt; have := imm.isLt
  simp only [rsOf, toNat_extract, toNat_encodeI]; omega

@[simp] theorem rtOf_encodeI : rtOf (encodeI opcode rs rt imm) = rt := by
  apply BitVec.eq_of_toNat_eq
  have := rs.isLt; have := rt.isLt; have := opcode.isLt; have := imm.isLt
  simp only [rtOf, toNat_extract, toNat_encodeI]; omega

@[simp] theorem immOf_encodeI : immOf (encodeI opcode rs rt imm) = imm := by
  apply BitVec.eq_of_toNat_eq
  have := rs.isLt; have := rt.isLt; have := opcode.isLt; have := imm.isLt
  simp only [immOf, toNat_extract, toNat_encodeI]; omega

end IFormat

section JFormat

variable (opcode : Code6) (address : Target26)

@[simp] theorem opcodeOf_encodeJ : opcodeOf (encodeJ opcode address) = opcode := by
  apply BitVec.eq_of_toNat_eq
  have := opcode.isLt; have := address.isLt
  simp only [opcodeOf, toNat_extract, toNat_encodeJ]; omega

@[simp] theorem addressOf_encodeJ : addressOf (encodeJ opcode address) = address := by
  apply BitVec.eq_of_toNat_eq
  have := opcode.isLt; have := address.isLt
  simp only [addressOf, toNat_extract, toNat_encodeJ]; omega

end JFormat

/-! ### A word from its fields -/

/-- A word with opcode 0 is the R-format word of its fields. -/
theorem encodeR_fields {w : Word} (h : opcodeOf w = 0x00#6) :
    encodeR (rsOf w) (rtOf w) (rdOf w) (shamtOf w) (funcOf w) = w := by
  have := w.isLt
  simp only [← BitVec.toNat_inj, opcodeOf, toNat_extract, BitVec.toNat_ofNat] at h
  simp only [← BitVec.toNat_inj, toNat_encodeR, rsOf, rtOf, rdOf, shamtOf, funcOf, toNat_extract]
  omega

/-- Every word is the I-format word of its fields. -/
theorem encodeI_fields (w : Word) : encodeI (opcodeOf w) (rsOf w) (rtOf w) (immOf w) = w := by
  have := w.isLt
  simp only [← BitVec.toNat_inj, toNat_encodeI, opcodeOf, rsOf, rtOf, immOf, toNat_extract]
  omega

/-- Every word is the J-format word of its fields. -/
theorem encodeJ_fields (w : Word) : encodeJ (opcodeOf w) (addressOf w) = w := by
  have := w.isLt
  simp only [← BitVec.toNat_inj, toNat_encodeJ, opcodeOf, addressOf, toNat_extract]
  omega

/-- The sentinel's opcode, which belongs to no operation (R78). -/
theorem opcodeOf_sentinel : opcodeOf sentinel = 0x3F#6 := by decide

/-- A word whose opcode is not the sentinel's is not the sentinel. -/
theorem ne_sentinel_of_opcode {w : Word} (h : opcodeOf w ≠ 0x3F#6) : w ≠ sentinel :=
  fun e => h (e ▸ opcodeOf_sentinel)

/-! ### Bytes and words -/

/-- A word is the join of its bytes (R40, R42). -/
theorem wordOfBytes_bytes (v : Word) :
    wordOfBytes (v.extractLsb' 24 8) (v.extractLsb' 16 8) (v.extractLsb' 8 8) (v.extractLsb' 0 8) = v := by
  have := v.isLt
  unfold wordOfBytes
  rw [← BitVec.toNat_inj]
  simp only [toNat_append_eq, toNat_extract]
  omega

/-- A half-word is the join of its bytes (R41). -/
theorem halfOfBytes_bytes (v : Half) : halfOfBytes (v.extractLsb' 8 8) (v.extractLsb' 0 8) = v := by
  have := v.isLt
  unfold halfOfBytes
  rw [← BitVec.toNat_inj]
  simp only [toNat_append_eq, toNat_extract]
  omega

@[simp] theorem length_bytesOfWord (v : Word) : (bytesOfWord v).length = 4 := rfl

@[simp] theorem length_bytesOfHalf (v : Half) : (bytesOfHalf v).length = 2 := rfl

/-- Decoding the bytes of a word is decoding the word. -/
@[simp] theorem decodeBytes_bytesOfWord (w : Word) : decodeBytes (bytesOfWord w) = decode w := by
  simp [decodeBytes, bytesOfWord, wordOfBytes_bytes]

/-! ### The masks of R78 -/

/-- The mask of the I and J formats keeps the opcode. -/
theorem and_mask_opcode (w : Word) : w &&& 0xFC000000#32 = (opcodeOf w).setWidth 32 <<< 26 := by
  ext k hk
  simp only [opcodeOf]
  interval_cases k <;> simp

/-- The mask of the R format keeps opcode and func. -/
theorem and_mask_func (w : Word) :
    w &&& 0xFC00003F#32 = (opcodeOf w).setWidth 32 <<< 26 ||| (funcOf w).setWidth 32 := by
  ext k hk
  simp only [opcodeOf, funcOf]
  interval_cases k <;> simp

end Sys2Proof
end

