-- ==== Sys2Proof/Laws/Memory.lean ====
section
/-! SUPPORT. Memory as data: a read after a write, and the canonical form. -/

namespace Sys2Proof.Machine

/-! ### Reading one byte -/

@[simp] theorem readByte_nil (a : Nat) : Memory.readByte [] a = unlistedByte := rfl

theorem readByte_cons (cell : Host.Cell) (m : Memory) (a : Nat) :
    Memory.readByte (cell :: m) a = if cell.1 = a then cell.2 else m.readByte a := rfl

theorem erase_cons (cell : Host.Cell) (m : Memory) (a : Nat) :
    Memory.erase (cell :: m) a = if cell.1 = a then m.erase a else cell :: m.erase a := by
  by_cases h : cell.1 = a <;> simp [Memory.erase, h]

theorem readByte_erase (m : Memory) (a b : Nat) :
    (m.erase a).readByte b = if b = a then unlistedByte else m.readByte b := by
  induction m with
  | nil => simp [Memory.erase]
  | cons cell rest ih =>
    by_cases h : cell.1 = a
    · by_cases hb : b = a
      · subst hb
        simpa [erase_cons, h] using ih
      · simp [erase_cons, h, hb, ih, readByte_cons, Ne.symm hb]
    · by_cases hb : cell.1 = b
      · simp [erase_cons, readByte_cons, hb, hb ▸ h]
      · simp [erase_cons, h, hb, readByte_cons, ih]

theorem readByte_insert_same (m : Memory) (a : Nat) (v : Byte) (h : ∀ cell ∈ m, cell.1 ≠ a) :
    (m.insert a v).readByte a = v := by
  induction m with
  | nil => simp [Memory.insert, readByte_cons]
  | cons cell rest ih =>
    have hc := h cell (by simp)
    have hr := ih fun c hm => h c (by simp [hm])
    by_cases hlt : a < cell.1 <;> simp [Memory.insert, hlt, readByte_cons, hc, hr]

theorem readByte_insert_other (m : Memory) (a b : Nat) (v : Byte) (h : b ≠ a) :
    (m.insert a v).readByte b = m.readByte b := by
  induction m with
  | nil => simp [Memory.insert, readByte_cons, Ne.symm h]
  | cons cell rest ih =>
    by_cases hlt : a < cell.1 <;> simp [Memory.insert, hlt, readByte_cons, Ne.symm h, ih]

theorem addr_ne_of_mem_erase {m : Memory} {a : Nat} {cell : Host.Cell} (h : cell ∈ m.erase a) : cell.1 ≠ a := by
  simpa using (List.mem_filter.mp h).2

/-- A byte read after a byte write: the value written at that address, the old byte at every other. -/
theorem readByte_writeByte (m : Memory) (a b : Nat) (v : Byte) :
    (m.writeByte a v).readByte b = if b = a then v else m.readByte b := by
  unfold Memory.writeByte
  by_cases hv : v = unlistedByte
  · simp [hv, readByte_erase]
  · by_cases hb : b = a
    · subst hb
      simp [hv, readByte_insert_same _ _ _ fun c hc => addr_ne_of_mem_erase hc]
    · simp [hv, hb, readByte_insert_other, readByte_erase]

/-! ### Writing several bytes -/

/-- A byte outside the bytes written reads as before. -/
theorem readByte_writeBytes_outside (bs : List Byte) (m : Memory) (a b : Nat) (h : b < a ∨ a + bs.length ≤ b) :
    (m.writeBytes a bs).readByte b = m.readByte b := by
  induction bs generalizing m a with
  | nil => rfl
  | cons v bs ih =>
    simp only [List.length_cons] at h
    rw [Memory.writeBytes, ih _ _ (by omega), readByte_writeByte, if_neg (by omega)]

/-- Each byte written reads back. -/
theorem readByte_writeBytes_inside (bs : List Byte) (m : Memory) (a k : Nat) (h : k < bs.length) :
    (m.writeBytes a bs).readByte (a + k) = bs[k] := by
  induction bs generalizing m a k with
  | nil => simp at h
  | cons v bs ih =>
    cases k with
    | zero =>
      rw [Memory.writeBytes, readByte_writeBytes_outside _ _ _ _ (by omega), readByte_writeByte]
      simp
    | succ k =>
      have := ih (m.writeByte a v) (a + 1) k (by simpa using h)
      rw [Memory.writeBytes, show a + (k + 1) = a + 1 + k by omega, this]
      simp

/-- A word placed reads back (95_test_vectors.md W5). -/
theorem readWord_placeWord (m : Memory) (a : Nat) (v : Word) : (placeWord a v m).readWord a = v := by
  have read := readByte_writeBytes_inside (bytesOfWord v) m a
  have read0 := read 0 (by simp)
  rw [Nat.add_zero] at read0
  rw [Memory.readWord, placeWord, read0, read 1 (by simp), read 2 (by simp), read 3 (by simp)]
  exact wordOfBytes_bytes v

/-- A byte outside a placed word reads as before. -/
theorem readByte_placeWord_outside (m : Memory) (a b : Nat) (v : Word) (h : b < a ∨ a + 4 ≤ b) :
    (placeWord a v m).readByte b = m.readByte b :=
  readByte_writeBytes_outside _ _ _ _ h

/-! ### The canonical form -/

/-- The canonical form as a property of the list. -/
theorem wf_iff (m : Memory) :
    m.wf = true ↔ m.Pairwise (fun c d => c.1 < d.1) ∧ ∀ cell ∈ m, cell.2 ≠ unlistedByte := by
  induction m with
  | nil => simp [Memory.wf]
  | cons cell rest ih =>
    cases rest with
    | nil => simp [Memory.wf]
    | cons next rest =>
      simp only [Memory.wf, Bool.and_eq_true, decide_eq_true_eq, ih, List.pairwise_cons, List.mem_cons,
        forall_eq_or_imp]
      constructor
      · rintro ⟨⟨hv, hlt⟩, ⟨hall, hp⟩, hn⟩
        exact ⟨⟨⟨hlt, fun c hc => Nat.lt_trans hlt (hall c hc)⟩, hall, hp⟩, hv, hn⟩
      · rintro ⟨⟨⟨hlt, -⟩, hall, hp⟩, hv, hn⟩
        exact ⟨⟨hv, hlt⟩, ⟨hall, hp⟩, hn⟩

theorem wf_nil : Memory.wf [] = true := rfl

theorem wf_erase {m : Memory} (a : Nat) (h : m.wf = true) : (m.erase a).wf = true := by
  rw [wf_iff] at h ⊢
  exact ⟨h.1.filter _, fun c hc => h.2 c (List.mem_filter.mp hc).1⟩

theorem mem_insert {m : Memory} {a : Nat} {v : Byte} {cell : Host.Cell} :
    cell ∈ m.insert a v ↔ cell = (a, v) ∨ cell ∈ m := by
  induction m with
  | nil => simp [Memory.insert]
  | cons c rest ih =>
    by_cases h : a < c.1
    · simp [Memory.insert, h]
    · simp only [Memory.insert, h, if_false, List.mem_cons, ih]
      tauto

theorem wf_insert {m : Memory} {a : Nat} {v : Byte} (h : m.wf = true) (hv : v ≠ unlistedByte)
    (hne : ∀ cell ∈ m, cell.1 ≠ a) : (m.insert a v).wf = true := by
  rw [wf_iff] at h ⊢
  refine ⟨?_, fun c hc => (mem_insert.mp hc).elim (fun e => e ▸ hv) (h.2 c)⟩
  obtain ⟨hp, -⟩ := h
  induction m with
  | nil => simp [Memory.insert]
  | cons c rest ih =>
    obtain ⟨hc, hr⟩ := List.pairwise_cons.mp hp
    by_cases hlt : a < c.1
    · simp only [Memory.insert, hlt, if_true, List.pairwise_cons, List.mem_cons, forall_eq_or_imp]
      exact ⟨⟨trivial, fun d hd => Nat.lt_trans hlt (hc d hd)⟩, hc, hr⟩
    · have hca : c.1 < a := by have := hne c (by simp); omega
      simp only [Memory.insert, hlt, if_false, List.pairwise_cons]
      refine ⟨fun d hd => ?_, ih (fun d hd => hne d (by simp [hd])) hr⟩
      rcases mem_insert.mp hd with rfl | hd
      · exact hca
      · exact hc d hd

/-- A byte write keeps the canonical form. -/
theorem wf_writeByte {m : Memory} (a : Nat) (v : Byte) (h : m.wf = true) : (m.writeByte a v).wf = true := by
  unfold Memory.writeByte
  split
  · exact wf_erase a h
  · exact wf_insert (wf_erase a h) ‹_› fun c hc => addr_ne_of_mem_erase hc

/-- A write of several bytes keeps the canonical form. -/
theorem wf_writeBytes (bs : List Byte) {m : Memory} (a : Nat) (h : m.wf = true) : (m.writeBytes a bs).wf = true := by
  induction bs generalizing m a with
  | nil => exact h
  | cons v bs ih => exact ih _ (wf_writeByte a v h)

theorem wf_applyMemWrite (w : Option Store) {m : Memory} (h : m.wf = true) : (applyMemWrite w m).wf = true := by
  cases w with
  | none => exact h
  | some st => exact wf_writeBytes _ _ h

theorem wf_placeWord (a : Nat) (v : Word) {m : Memory} (h : m.wf = true) : (placeWord a v m).wf = true :=
  wf_writeBytes _ _ h

/-- The memory at reset has the canonical form. -/
theorem wf_reset : State.reset.mem.wf = true := rfl

/-! ### The addresses listed -/

theorem mem_writeByte {m : Memory} {a : Nat} {v : Byte} {cell : Host.Cell} (h : cell ∈ m.writeByte a v) :
    cell.1 = a ∨ cell ∈ m := by
  unfold Memory.writeByte at h
  split at h
  · exact .inr (List.mem_filter.mp h).1
  · rcases mem_insert.mp h with rfl | h
    · exact .inl rfl
    · exact .inr (List.mem_filter.mp h).1

/-- A write lists no address but those it writes. -/
theorem mem_writeBytes {bs : List Byte} {m : Memory} {a : Nat} {cell : Host.Cell} (h : cell ∈ m.writeBytes a bs) :
    (a ≤ cell.1 ∧ cell.1 < a + bs.length) ∨ cell ∈ m := by
  induction bs generalizing m a with
  | nil => exact .inr h
  | cons v bs ih =>
    simp only [List.length_cons]
    rcases ih h with h | h
    · exact .inl (by omega)
    · rcases mem_writeByte h with h | h
      · exact .inl (by omega)
      · exact .inr h

end Sys2Proof.Machine
end

