-- ==== Sys2Proof/Laws/State.lean ====
section
/-! SUPPORT. The fields of State after each state update, so that no proof unfolds a record update. -/

namespace Sys2Proof.Machine

@[simp] theorem takeFault_regs (f : FaultInfo) (w : Option Word) (s : State) :
    (takeFault f w s).regs = s.regs := rfl
@[simp] theorem takeFault_pc (f : FaultInfo) (w : Option Word) (s : State) :
    (takeFault f w s).pc = s.pc := rfl
@[simp] theorem takeFault_mem (f : FaultInfo) (w : Option Word) (s : State) :
    (takeFault f w s).mem = s.mem := rfl
@[simp] theorem takeFault_status (f : FaultInfo) (w : Option Word) (s : State) :
    (takeFault f w s).status = .faulted := rfl
@[simp] theorem takeFault_fault (f : FaultInfo) (w : Option Word) (s : State) :
    (takeFault f w s).fault = some { reason := f.reason, pc := s.pc, instr := w, addr := f.addr } := rfl
@[simp] theorem takeFault_fresh (f : FaultInfo) (w : Option Word) (s : State) :
    (takeFault f w s).fresh = false := rfl
@[simp] theorem takeFault_cfg (f : FaultInfo) (w : Option Word) (s : State) :
    (takeFault f w s).cfg = s.cfg := rfl

@[simp] theorem haltAtSentinel_regs (s : State) :
    (haltAtSentinel s).regs = s.regs := rfl
@[simp] theorem haltAtSentinel_pc (s : State) :
    (haltAtSentinel s).pc = s.pc := rfl
@[simp] theorem haltAtSentinel_mem (s : State) :
    (haltAtSentinel s).mem = s.mem := rfl
@[simp] theorem haltAtSentinel_status (s : State) :
    (haltAtSentinel s).status = .halted := rfl
@[simp] theorem haltAtSentinel_fault (s : State) :
    (haltAtSentinel s).fault = s.fault := rfl
@[simp] theorem haltAtSentinel_fresh (s : State) :
    (haltAtSentinel s).fresh = false := rfl
@[simp] theorem haltAtSentinel_cfg (s : State) :
    (haltAtSentinel s).cfg = s.cfg := rfl

@[simp] theorem commit_regs (e : Effect) (s : State) :
    (commit e s).regs = applyRegWrite e.regWrite s.regs := rfl
@[simp] theorem commit_pc (e : Effect) (s : State) :
    (commit e s).pc = nextPc e.target s.pc := rfl
@[simp] theorem commit_mem (e : Effect) (s : State) :
    (commit e s).mem = applyMemWrite e.memWrite s.mem := rfl
@[simp] theorem commit_status (e : Effect) (s : State) :
    (commit e s).status = regionStatus s.cfg (nextPc e.target s.pc) s.status := rfl
@[simp] theorem commit_fault (e : Effect) (s : State) :
    (commit e s).fault = s.fault := rfl
@[simp] theorem commit_fresh (e : Effect) (s : State) :
    (commit e s).fresh = false := rfl
@[simp] theorem commit_cfg (e : Effect) (s : State) :
    (commit e s).cfg = s.cfg := rfl

@[simp] theorem withFetchWord_regs (s : State) (n w : Nat) :
    (s.withFetchWord n w).regs = s.regs := rfl
@[simp] theorem withFetchWord_pc (s : State) (n w : Nat) :
    (s.withFetchWord n w).pc = s.pc := rfl
@[simp] theorem withFetchWord_mem (s : State) (n w : Nat) :
    (s.withFetchWord n w).mem = placeWord s.pc.toNat (tableWord n w) s.mem := rfl
@[simp] theorem withFetchWord_status (s : State) (n w : Nat) :
    (s.withFetchWord n w).status = s.status := rfl
@[simp] theorem withFetchWord_fault (s : State) (n w : Nat) :
    (s.withFetchWord n w).fault = s.fault := rfl
@[simp] theorem withFetchWord_fresh (s : State) (n w : Nat) :
    (s.withFetchWord n w).fresh = s.fresh := rfl
@[simp] theorem withFetchWord_cfg (s : State) (n w : Nat) :
    (s.withFetchWord n w).cfg = s.cfg := rfl

@[simp] theorem resetWith_regs (c : Config) :
    (State.resetWith c).regs = Vector.replicate 32 0#32 := rfl
@[simp] theorem resetWith_pc (c : Config) :
    (State.resetWith c).pc = BitVec.ofNat 32 c.pcStart := rfl
@[simp] theorem resetWith_mem (c : Config) :
    (State.resetWith c).mem = [] := rfl
@[simp] theorem resetWith_status (c : Config) :
    (State.resetWith c).status = .running := rfl
@[simp] theorem resetWith_fault (c : Config) :
    (State.resetWith c).fault = none := rfl
@[simp] theorem resetWith_fresh (c : Config) :
    (State.resetWith c).fresh = true := rfl
@[simp] theorem resetWith_cfg (c : Config) :
    (State.resetWith c).cfg = c := rfl

end Sys2Proof.Machine
end

