-- ==== Sys2Proof/Laws/Ops.lean ====
section
/-! SUPPORT. One lemma for each shared operation: everything it can do. -/

namespace Sys2Proof.Machine

/-! ### Registers -/

/-- A register read of a state whose registers are those of a write. -/
theorem readReg_of_writeReg {s t : State} {i : RegIdx} {v : Word} (h : t.regs = writeReg s.regs i v) (r : RegIdx) :
    readReg t r = if r = 0#5 then 0#32 else if r = i then v else readReg s r := by
  unfold readReg
  by_cases hr : r = 0#5
  · simp [hr]
  · simp only [hr, if_false, h, writeReg]
    by_cases hi : i = 0#5
    · have : r ≠ i := hi ▸ hr
      simp [hi, hr]
    · simp only [hi, if_false, Vector.getElem_set]
      by_cases hri : r = i
      · simp [hri]
      · have : i.toNat ≠ r.toNat := fun e => hri (BitVec.eq_of_toNat_eq e.symm)
        simp [hri, this]

/-- A register read depends on the registers alone. -/
theorem readReg_congr {s t : State} (h : t.regs = s.regs) (r : RegIdx) : readReg t r = readReg s r := by
  simp [readReg, h]

@[simp] theorem readReg_zero (s : State) : readReg s 0#5 = 0#32 := by simp [readReg]

/-- A register write leaves the storage of register 0. -/
theorem writeReg_slot_zero (regs : Vector Word 32) (i : RegIdx) (v : Word) : (writeReg regs i v)[0] = regs[0] := by
  unfold writeReg
  split
  · rfl
  · rename_i h
    have : i.toNat ≠ 0 := fun e => h (BitVec.eq_of_toNat_eq e)
    simp [this]

/-! ### Access checks -/

/-- The check of an access, its three cases in the order of 20_memory.md R48. -/
theorem checkAccess_cases (c : Config) (addr : Word) (n : Nat) :
    (addr.toNat % n ≠ 0 ∧ checkAccess c addr n = .error ⟨.alignmentError, some addr⟩) ∨
    (addr.toNat % n = 0 ∧ c.endMem < addr.toNat + n - 1 ∧
      checkAccess c addr n = .error ⟨.outOfBounds, some addr⟩) ∨
    (addr.toNat % n = 0 ∧ addr.toNat + n - 1 ≤ c.endMem ∧ checkAccess c addr n = .ok ()) := by
  unfold checkAccess
  by_cases ha : addr.toNat % n = 0
  · by_cases hb : c.endMem < addr.toNat + n - 1
    · exact .inr (.inl ⟨ha, hb, by simp [ha, hb]⟩)
    · exact .inr (.inr ⟨ha, by omega, by simp [ha, hb]⟩)
  · exact .inl ⟨ha, by simp [ha]⟩

theorem checkAccess_misaligned {c : Config} {addr : Word} {n : Nat} (h : addr.toNat % n ≠ 0) :
    checkAccess c addr n = .error ⟨.alignmentError, some addr⟩ := by simp [checkAccess, h]

theorem checkAccess_outOfBounds {c : Config} {addr : Word} {n : Nat} (ha : addr.toNat % n = 0)
    (hb : c.endMem < addr.toNat + n - 1) : checkAccess c addr n = .error ⟨.outOfBounds, some addr⟩ := by
  simp [checkAccess, ha, hb]

theorem checkAccess_ok {c : Config} {addr : Word} {n : Nat} (ha : addr.toNat % n = 0)
    (hb : addr.toNat + n - 1 ≤ c.endMem) : checkAccess c addr n = .ok () := by
  simp [checkAccess, ha, Nat.not_lt.mpr hb]

/-! ### The end of an instruction -/

@[simp] theorem complete_error (w : Word) (f : FaultInfo) (s : State) :
    complete w (.error f) s = .next (takeFault f (some w) s) := rfl

@[simp] theorem complete_ok (w : Word) (e : Effect) (s : State) : complete w (.ok e) s = .next (commit e s) := rfl

/-- What the end of an instruction can be: a fault taken, or an effect committed; always a next state. -/
theorem complete_cases (w : Word) (r : Result) (s : State) :
    (∃ f, r = .error f ∧ complete w r s = .next (takeFault f (some w) s)) ∨
    (∃ e, r = .ok e ∧ complete w r s = .next (commit e s)) := by
  cases r with
  | error f => exact .inl ⟨f, rfl, rfl⟩
  | ok e => exact .inr ⟨e, rfl, rfl⟩

/-- What an unmapped word can do (30_encoding.md R80). -/
theorem unmappedWord_cases (w : Word) (s : State) :
    (s.cfg.unmapped = .illegal ∧
      unmappedWord w s = .next (takeFault ⟨.illegalInstruction, none⟩ (some w) s)) ∨
    (s.cfg.unmapped = .nop ∧ unmappedWord w s = .next (commit Effect.empty s)) := by
  unfold unmappedWord
  cases h : s.cfg.unmapped
  · exact .inl ⟨rfl, rfl⟩
  · exact .inr ⟨rfl, rfl⟩

/-- The status after a pc update is `Halted` or what it was. -/
theorem regionStatus_cases (c : Config) (pc : Word) (st : Status) :
    (c.staticData ≤ pc.toNat ∧ regionStatus c pc st = .halted) ∨
    (pc.toNat < c.staticData ∧ regionStatus c pc st = st) := by
  unfold regionStatus
  split
  · exact .inl ⟨‹_›, rfl⟩
  · exact .inr ⟨by omega, rfl⟩

/-! ### Conditions -/

theorem bool01_cases (c : Bool) : bool01 c = 0#32 ∨ bool01 c = 1#32 := by cases c <;> simp [bool01]

theorem signedAdd_ok {a b : Word} (h : fitsSigned (a.toInt + b.toInt) = true) : signedAdd a b = .ok (a + b) := by
  simp [signedAdd, h]

theorem signedAdd_overflow {a b : Word} (h : fitsSigned (a.toInt + b.toInt) = false) :
    signedAdd a b = .error ⟨.arithmeticOverflow, none⟩ := by simp [signedAdd, h]

theorem signedSub_ok {a b : Word} (h : fitsSigned (a.toInt - b.toInt) = true) : signedSub a b = .ok (a - b) := by
  simp [signedSub, h]

theorem signedSub_overflow {a b : Word} (h : fitsSigned (a.toInt - b.toInt) = false) :
    signedSub a b = .error ⟨.arithmeticOverflow, none⟩ := by simp [signedSub, h]

end Sys2Proof.Machine
end

