-- ==== Sys2Proof/Laws/PerInstr.lean ====
section
/-! SUPPORT. What holds of every instruction as syntax, one lemma per constructor. -/

namespace Sys2Proof.Laws

/-- The word of an instruction matches the row of its operation (30_encoding.md R78). -/
def RowMatch.Statement (i : Instr) : Prop := encode i &&& i.op.mask = i.op.pattern

theorem rowMatch_R (rs rt rd : RegIdx) (shamt : Shamt) (func : Code6) :
    encodeR rs rt rd shamt func &&& 0xFC00003F#32 = func.setWidth 32 := by
  rw [and_mask_func, opcodeOf_encodeR, funcOf_encodeR]
  simp

theorem rowMatch_I (opcode : Code6) (rs rt : RegIdx) (imm : Imm16) :
    encodeI opcode rs rt imm &&& 0xFC000000#32 = opcode.setWidth 32 <<< 26 := by
  rw [and_mask_opcode, opcodeOf_encodeI]

theorem rowMatch_J (opcode : Code6) (address : Target26) :
    encodeJ opcode address &&& 0xFC000000#32 = opcode.setWidth 32 <<< 26 := by
  rw [and_mask_opcode, opcodeOf_encodeJ]

theorem RowMatch.sll (rs rt rd : RegIdx) (shamt : Shamt) : RowMatch.Statement (.sll rs rt rd shamt) :=
  rowMatch_R rs rt rd shamt _

theorem RowMatch.srl (rs rt rd : RegIdx) (shamt : Shamt) : RowMatch.Statement (.srl rs rt rd shamt) :=
  rowMatch_R rs rt rd shamt _

theorem RowMatch.jr (rs rt rd : RegIdx) (shamt : Shamt) : RowMatch.Statement (.jr rs rt rd shamt) :=
  rowMatch_R rs rt rd shamt _

theorem RowMatch.add (rs rt rd : RegIdx) (shamt : Shamt) : RowMatch.Statement (.add rs rt rd shamt) :=
  rowMatch_R rs rt rd shamt _

theorem RowMatch.addu (rs rt rd : RegIdx) (shamt : Shamt) : RowMatch.Statement (.addu rs rt rd shamt) :=
  rowMatch_R rs rt rd shamt _

theorem RowMatch.sub (rs rt rd : RegIdx) (shamt : Shamt) : RowMatch.Statement (.sub rs rt rd shamt) :=
  rowMatch_R rs rt rd shamt _

theorem RowMatch.subu (rs rt rd : RegIdx) (shamt : Shamt) : RowMatch.Statement (.subu rs rt rd shamt) :=
  rowMatch_R rs rt rd shamt _

theorem RowMatch.and (rs rt rd : RegIdx) (shamt : Shamt) : RowMatch.Statement (.and rs rt rd shamt) :=
  rowMatch_R rs rt rd shamt _

theorem RowMatch.or (rs rt rd : RegIdx) (shamt : Shamt) : RowMatch.Statement (.or rs rt rd shamt) :=
  rowMatch_R rs rt rd shamt _

theorem RowMatch.nor (rs rt rd : RegIdx) (shamt : Shamt) : RowMatch.Statement (.nor rs rt rd shamt) :=
  rowMatch_R rs rt rd shamt _

theorem RowMatch.slt (rs rt rd : RegIdx) (shamt : Shamt) : RowMatch.Statement (.slt rs rt rd shamt) :=
  rowMatch_R rs rt rd shamt _

theorem RowMatch.sltu (rs rt rd : RegIdx) (shamt : Shamt) : RowMatch.Statement (.sltu rs rt rd shamt) :=
  rowMatch_R rs rt rd shamt _

theorem RowMatch.beq (rs rt : RegIdx) (imm : Imm16) : RowMatch.Statement (.beq rs rt imm) :=
  rowMatch_I _ rs rt imm

theorem RowMatch.bne (rs rt : RegIdx) (imm : Imm16) : RowMatch.Statement (.bne rs rt imm) :=
  rowMatch_I _ rs rt imm

theorem RowMatch.addi (rs rt : RegIdx) (imm : Imm16) : RowMatch.Statement (.addi rs rt imm) :=
  rowMatch_I _ rs rt imm

theorem RowMatch.addiu (rs rt : RegIdx) (imm : Imm16) : RowMatch.Statement (.addiu rs rt imm) :=
  rowMatch_I _ rs rt imm

theorem RowMatch.slti (rs rt : RegIdx) (imm : Imm16) : RowMatch.Statement (.slti rs rt imm) :=
  rowMatch_I _ rs rt imm

theorem RowMatch.sltiu (rs rt : RegIdx) (imm : Imm16) : RowMatch.Statement (.sltiu rs rt imm) :=
  rowMatch_I _ rs rt imm

theorem RowMatch.andi (rs rt : RegIdx) (imm : Imm16) : RowMatch.Statement (.andi rs rt imm) :=
  rowMatch_I _ rs rt imm

theorem RowMatch.ori (rs rt : RegIdx) (imm : Imm16) : RowMatch.Statement (.ori rs rt imm) :=
  rowMatch_I _ rs rt imm

theorem RowMatch.lui (rs rt : RegIdx) (imm : Imm16) : RowMatch.Statement (.lui rs rt imm) :=
  rowMatch_I _ rs rt imm

theorem RowMatch.lw (rs rt : RegIdx) (imm : Imm16) : RowMatch.Statement (.lw rs rt imm) :=
  rowMatch_I _ rs rt imm

theorem RowMatch.lbu (rs rt : RegIdx) (imm : Imm16) : RowMatch.Statement (.lbu rs rt imm) :=
  rowMatch_I _ rs rt imm

theorem RowMatch.lhu (rs rt : RegIdx) (imm : Imm16) : RowMatch.Statement (.lhu rs rt imm) :=
  rowMatch_I _ rs rt imm

theorem RowMatch.sb (rs rt : RegIdx) (imm : Imm16) : RowMatch.Statement (.sb rs rt imm) :=
  rowMatch_I _ rs rt imm

theorem RowMatch.sh (rs rt : RegIdx) (imm : Imm16) : RowMatch.Statement (.sh rs rt imm) :=
  rowMatch_I _ rs rt imm

theorem RowMatch.sw (rs rt : RegIdx) (imm : Imm16) : RowMatch.Statement (.sw rs rt imm) :=
  rowMatch_I _ rs rt imm

theorem RowMatch.j (address : Target26) : RowMatch.Statement (.j address) :=
  rowMatch_J _ address

theorem RowMatch.jal (address : Target26) : RowMatch.Statement (.jal address) :=
  rowMatch_J _ address

theorem RowMatch.halt : RowMatch.Statement .halt := rfl

end Sys2Proof.Laws
end

