-- ==== Sys2Proof/Laws/Step.lean ====
section
/-! SUPPORT. Everything an instruction, a pass of the loop and a step can do, said once: the proofs about all
instructions and all steps start from these cases. -/

namespace Sys2Proof.Machine

/-- An instruction halts at the sentinel, takes one fault that records its own word, or commits one effect
(00_scope.md R16). -/
theorem exec_cases (i : Instr) (s : State) :
    (i = .halt ∧ exec i s = .next (haltAtSentinel s)) ∨
    (i ≠ .halt ∧ ∃ f, exec i s = .next (takeFault f (some (encode i)) s)) ∨
    (i ≠ .halt ∧ ∃ e, exec i s = .next (commit e s)) := by
  cases i
  case halt => exact .inl ⟨rfl, rfl⟩
  all_goals
    simp only [exec, execSll, execSrl, execJr, execAdd, execAddu, execSub, execSubu, execAnd, execOr, execNor, execSlt,
      execSltu, execBeq, execBne, execAddi, execAddiu, execSlti, execSltiu, execAndi, execOri, execLui, execLw,
      execLbu, execLhu, execSb, execSh, execSw, execJ, execJal]
    exact .inr ((complete_cases _ _ s).imp (fun ⟨f, _, h⟩ => ⟨by simp, f, h⟩) (fun ⟨e, _, h⟩ => ⟨by simp, e, h⟩))

/-- A fetch from an aligned pc in bounds gives the word there (20_memory.md R51). -/
theorem fetch_ok {s : State} (ha : s.pc.toNat % 4 = 0) (hb : s.pc.toNat + 3 ≤ s.cfg.endMem) :
    fetch s = .ok (s.mem.readWord s.pc.toNat) := by
  rw [fetch, memRead32, checkAccess_ok ha (by omega)]
  rfl

/-- One pass of the loop: a fetch fault, a decoded instruction, or an unmapped word (40_fetch_loop.md R96 to R99). -/
theorem cycle_cases (s : State) :
    (∃ f, fetch s = .error f ∧ cycle s = .next (takeFault f none s)) ∨
    (∃ w i, fetch s = .ok w ∧ decode w = .ok i ∧ cycle s = exec i s) ∨
    (∃ w e, fetch s = .ok w ∧ decode w = .error e ∧ cycle s = unmappedWord w s) := by
  unfold cycle
  cases hf : fetch s with
  | error f => exact .inl ⟨f, rfl, rfl⟩
  | ok w =>
    simp only [runWord]
    cases hd : decode w with
    | ok i => exact .inr (.inl ⟨w, i, rfl, hd, rfl⟩)
    | error e => exact .inr (.inr ⟨w, e, rfl, hd, rfl⟩)

/-- A step that answers a next state: a terminal state stays, a running one makes one pass of the loop (R95). -/
theorem step_cases {s t : State} (h : step s = .next t) :
    s.cfg.wf = true ∧ ((s.status ≠ .running ∧ t = s) ∨ (s.status = .running ∧ cycle s = .next t)) := by
  unfold step loopStep at h
  split at h
  · refine ⟨‹_›, ?_⟩
    cases hs : s.status <;> rw [hs] at h
    · exact .inr ⟨rfl, h⟩
    · exact .inl ⟨by simp, by injection h with h; exact h.symm⟩
    · exact .inl ⟨by simp, by injection h with h; exact h.symm⟩
  · cases h

/-- The next state of a pass of the loop is a fault taken, an effect committed, or the halt at the sentinel. -/
theorem cycle_next {s t : State} (h : cycle s = .next t) :
    (∃ f w, t = takeFault f w s) ∨ (∃ e, t = commit e s) ∨ t = haltAtSentinel s := by
  rcases cycle_cases s with ⟨f, -, hc⟩ | ⟨w, i, -, -, hc⟩ | ⟨w, e, -, -, hc⟩ <;> rw [hc] at h
  · injection h with h
    exact .inl ⟨_, _, h.symm⟩
  · rcases exec_cases i s with ⟨-, he⟩ | ⟨-, f, he⟩ | ⟨-, e, he⟩ <;> rw [he] at h <;> injection h with h
    · exact .inr (.inr h.symm)
    · exact .inl ⟨_, _, h.symm⟩
    · exact .inr (.inl ⟨_, h.symm⟩)
  · rcases unmappedWord_cases w s with ⟨-, hu⟩ | ⟨-, hu⟩ <;> rw [hu] at h <;> injection h with h
    · exact .inl ⟨_, _, h.symm⟩
    · exact .inr (.inl ⟨_, h.symm⟩)

end Sys2Proof.Machine
end

