-- ==== Sys2Proof/Tests/Slice0.lean ====
section
/-! SUPPORT. The model's own tests. Expected values are the spec's: the vectors of spec/95_test_vectors.md and the
encodings of spec/opcode_table.json and files 41 to 44, not the model's answers. -/

namespace Sys2Proof.Tests

open Sys2Proof.Machine

/-! ### A small state and what a step leaves in it -/

/-- The configuration TC (92_eei_decisions.md D2). -/
def tc : Config := machineConfig

/-- A fresh machine with r1, r2, r3 set, and the bytes 81 82 83 84 at 0x2000 (44_load_store.md's examples). -/
def small (r1 r2 r3 : Word) : State :=
  { State.reset with
    regs := writeReg (writeReg (writeReg State.reset.regs 1 r1) 2 r2) 3 r3
    mem := [(0x2000, 0x81#8), (0x2001, 0x82#8), (0x2002, 0x83#8), (0x2003, 0x84#8)] }

/-- One step with the word `w` at the pc. -/
def one (w : Nat) (s : State) : Host.Outcome State Fault Refusal := step (s.withFetchWord 32 w)

/-- A register after a next state. -/
def regOf (r : RegIdx) : Host.Outcome State Fault Refusal → Option Word
  | .next t => some (readReg t r)
  | _ => none

/-- The pc and status after a next state. -/
def endOf : Host.Outcome State Fault Refusal → Option (Word × Status)
  | .next t => some (t.pc, t.status)
  | _ => none

/-- The fault record after a next state. -/
def faultOf : Host.Outcome State Fault Refusal → Option FaultRecord
  | .next t => t.fault
  | _ => none

/-- The bytes from `a` on after a next state. -/
def bytesOf (a k : Nat) : Host.Outcome State Fault Refusal → List Byte
  | .next t => bytesFrom t.mem a k
  | _ => []

/-! ### WellFormed: each check refuses an ill-formed term -/

theorem test_wf_accepts_tc : tc.wf = true := by decide
theorem test_wf_accepts_largest : ({ tc with dynamicData := 2 ^ 31, staticData := 2 ^ 31, endMem := 2 ^ 31 - 1 } : Config).wf = true := by decide
theorem test_wf_refuses_pcStart_misaligned : ({ tc with pcStart := 0x1002 } : Config).wf = false := by decide
theorem test_wf_refuses_staticData_misaligned : ({ tc with staticData := 0x2001 } : Config).wf = false := by decide
theorem test_wf_refuses_dynamicData_misaligned : ({ tc with dynamicData := 0x3002 } : Config).wf = false := by decide
theorem test_wf_refuses_endMem_misaligned : ({ tc with endMem := 0x3FFE } : Config).wf = false := by decide
theorem test_wf_refuses_empty_text : ({ tc with staticData := 0x1000 } : Config).wf = false := by decide
theorem test_wf_refuses_static_past_dynamic : ({ tc with dynamicData := 0x1FFC } : Config).wf = false := by decide
theorem test_wf_refuses_dynamic_past_end : ({ tc with dynamicData := 0x4004 } : Config).wf = false := by decide
theorem test_wf_refuses_past_2_31 : ({ tc with endMem := 2 ^ 31 + 3 } : Config).wf = false := by decide
theorem test_fits_accepts_full : Program.fits tc ⟨List.replicate 1024 0, List.replicate 1024 0⟩ = true := by
  simp only [Program.fits, List.length_replicate]
  decide
theorem test_fits_refuses_instructions : Program.fits tc ⟨List.replicate 1025 0, []⟩ = false := by
  simp only [Program.fits, List.length_replicate]
  decide
theorem test_fits_refuses_data : Program.fits tc ⟨[], List.replicate 1025 0⟩ = false := by
  simp only [Program.fits, List.length_replicate]
  decide

/-! ### Decode: a word of every row, its bits written out from the row's encoding -/

theorem test_decode_sll : decode 0b00000000001000100001100100000000#32 = .ok (.sll 1 2 3 4) := by decide
theorem test_decode_srl : decode 0b00000000001000100001100100000010#32 = .ok (.srl 1 2 3 4) := by decide
theorem test_decode_jr : decode 0b00000000001000100001100100001000#32 = .ok (.jr 1 2 3 4) := by decide
theorem test_decode_add : decode 0b00000000001000100001100100100000#32 = .ok (.add 1 2 3 4) := by decide
theorem test_decode_addu : decode 0b00000000001000100001100100100001#32 = .ok (.addu 1 2 3 4) := by decide
theorem test_decode_sub : decode 0b00000000001000100001100100100010#32 = .ok (.sub 1 2 3 4) := by decide
theorem test_decode_subu : decode 0b00000000001000100001100100100011#32 = .ok (.subu 1 2 3 4) := by decide
theorem test_decode_and : decode 0b00000000001000100001100100100100#32 = .ok (.and 1 2 3 4) := by decide
theorem test_decode_or : decode 0b00000000001000100001100100100101#32 = .ok (.or 1 2 3 4) := by decide
theorem test_decode_nor : decode 0b00000000001000100001100100100111#32 = .ok (.nor 1 2 3 4) := by decide
theorem test_decode_slt : decode 0b00000000001000100001100100101010#32 = .ok (.slt 1 2 3 4) := by decide
theorem test_decode_sltu : decode 0b00000000001000100001100100101011#32 = .ok (.sltu 1 2 3 4) := by decide
theorem test_decode_beq : decode 0b00010000001000101000000000000001#32 = .ok (.beq 1 2 0x8001) := by decide
theorem test_decode_bne : decode 0b00010100001000101000000000000001#32 = .ok (.bne 1 2 0x8001) := by decide
theorem test_decode_addi : decode 0b00100000001000101000000000000001#32 = .ok (.addi 1 2 0x8001) := by decide
theorem test_decode_addiu : decode 0b00100100001000101000000000000001#32 = .ok (.addiu 1 2 0x8001) := by decide
theorem test_decode_slti : decode 0b00101000001000101000000000000001#32 = .ok (.slti 1 2 0x8001) := by decide
theorem test_decode_sltiu : decode 0b00101100001000101000000000000001#32 = .ok (.sltiu 1 2 0x8001) := by decide
theorem test_decode_andi : decode 0b00110000001000101000000000000001#32 = .ok (.andi 1 2 0x8001) := by decide
theorem test_decode_ori : decode 0b00110100001000101000000000000001#32 = .ok (.ori 1 2 0x8001) := by decide
theorem test_decode_lui : decode 0b00111100001000101000000000000001#32 = .ok (.lui 1 2 0x8001) := by decide
theorem test_decode_lw : decode 0b10001100001000101000000000000001#32 = .ok (.lw 1 2 0x8001) := by decide
theorem test_decode_lbu : decode 0b10010000001000101000000000000001#32 = .ok (.lbu 1 2 0x8001) := by decide
theorem test_decode_lhu : decode 0b10010100001000101000000000000001#32 = .ok (.lhu 1 2 0x8001) := by decide
theorem test_decode_sb : decode 0b10100000001000101000000000000001#32 = .ok (.sb 1 2 0x8001) := by decide
theorem test_decode_sh : decode 0b10100100001000101000000000000001#32 = .ok (.sh 1 2 0x8001) := by decide
theorem test_decode_sw : decode 0b10101100001000101000000000000001#32 = .ok (.sw 1 2 0x8001) := by decide
theorem test_decode_j : decode 0b00001010001101000101011001111000#32 = .ok (.j 0x2345678) := by decide
theorem test_decode_jal : decode 0b00001110001101000101011001111000#32 = .ok (.jal 0x2345678) := by decide
theorem test_decode_halt : decode 0b11111111111111111111111111111111#32 = .ok .halt := by decide

theorem test_decode_unmapped_opcode : decode 0x80010000#32 = .error (.unmappedOpcode 0x20) := by decide
theorem test_decode_unmapped_func : decode 0x0000000C#32 = .error (.unmappedFunc 0x0C) := by decide
theorem test_decode_opcode_3F_is_not_halt : decode 0xFC000000#32 = .error (.unmappedOpcode 0x3F) := by decide
theorem test_decode_bytes_big_endian : decodeBytes [0x00, 0x22, 0x18, 0x20] = .ok (.add 1 2 3 0) := by decide
theorem test_decode_short : decodeBytes [0x00, 0x22] = .error (.notOneWord 2) := by decide
theorem test_decodeTableWord : decodeTableWord 32 0x24010005 = some (.addiu 0 1 5) := by decide
theorem test_encode_bytes : encodeBytes (.addiu 0 1 5) = [0x24, 0x01, 0x00, 0x05] := by decide

/-! ### Vectors of 95_test_vectors.md, one step from pc = 0x1000 -/

theorem test_add : regOf 3 (one 0x00221820 (small 5 7 0)) = some 0x0000000C := by decide
theorem test_add_same_register : regOf 1 (one 0x00210820 (small 3 0 0)) = some 6 := by decide
theorem test_addu_wraps : regOf 3 (one 0x00221821 (small 0x7FFFFFFF 1 0)) = some 0x80000000 := by decide
theorem test_sub : regOf 3 (one 0x00221822 (small 5 7 0)) = some 0xFFFFFFFE := by decide
theorem test_sub_to_min : regOf 3 (one 0x00221822 (small 0xFFFFFFFF 0x7FFFFFFF 0)) = some 0x80000000 := by decide
theorem test_subu_borrows : regOf 3 (one 0x00221823 (small 0 1 0)) = some 0xFFFFFFFF := by decide
theorem test_and : regOf 3 (one 0x00221824 (small 0xF0F0F0F0 0xFF00FF00 0)) = some 0xF000F000 := by decide
theorem test_or : regOf 3 (one 0x00221825 (small 0xF0F0F0F0 0x0F0F0000 0)) = some 0xFFFFF0F0 := by decide
theorem test_nor : regOf 3 (one 0x00221827 (small 0xF0F0F0F0 0x0F0F0000 0)) = some 0x00000F0F := by decide
theorem test_slt_negative : regOf 3 (one 0x0022182A (small 0xFFFFFFFF 1 0)) = some 1 := by decide
theorem test_sltu_large : regOf 3 (one 0x0022182B (small 0xFFFFFFFF 1 0)) = some 0 := by decide
theorem test_sll_writes_rt : regOf 2 (one 0x00220100 (small 0x12345678 0 0)) = some 0x23456780 := by decide
theorem test_sll_31 : regOf 2 (one 0x002207C0 (small 1 0 0)) = some 0x80000000 := by decide
theorem test_srl_fills_zero : regOf 2 (one 0x00220102 (small 0xF0000000 0 0)) = some 0x0F000000 := by decide
theorem test_sll_mips_word : regOf 1 (one 0x00011080 (small 5 0 0)) = some 0 := by decide
theorem test_addi : regOf 2 (one 0x20220001 (small 0x29 0 0)) = some 0x2A := by decide
theorem test_addi_sign_extends : regOf 2 (one 0x20228000 (small 0 0 0)) = some 0xFFFF8000 := by decide
theorem test_addiu_wraps : regOf 2 (one 0x24220001 (small 0xFFFFFFFF 0 0)) = some 0 := by decide
theorem test_andi_zero_extends : regOf 2 (one 0x30228000 (small 0xFFFFFFFF 0 0)) = some 0x00008000 := by decide
theorem test_ori_zero_extends : regOf 2 (one 0x34228001 (small 0x12340000 0 0)) = some 0x12348001 := by decide
theorem test_slti_signed : regOf 2 (one 0x2822FFFF (small 0xFFFFFFFE 0 0)) = some 1 := by decide
theorem test_sltiu_zero_extends : regOf 2 (one 0x2C22FFFF (small 0x00010000 0 0)) = some 0 := by decide
theorem test_sltiu_one : regOf 2 (one 0x2C220001 (small 0 0 0)) = some 1 := by decide
theorem test_lui_ignores_rs : regOf 2 (one 0x3C22FFFF (small 0xDEAD 0 0)) = some 0xFFFF0000 := by decide
theorem test_jal_links_next : regOf 31 (one 0x0C000404 (small 0 0 0)) = some 0x1004 := by decide
theorem test_lw : regOf 2 (one 0x8C220000 (small 0x2000 0 0)) = some 0x81828384 := by decide
theorem test_lw_negative_offset : regOf 2 (one 0x8C22FFFC (small 0x2004 0 0)) = some 0x81828384 := by decide
theorem test_lbu_zero_extends : regOf 2 (one 0x90220000 (small 0x2000 0 0)) = some 0x81 := by decide
theorem test_lbu_last_byte : regOf 2 (one 0x90221FFF (small 0x2000 0 9)) = some 0 := by decide
theorem test_lhu : regOf 2 (one 0x94220002 (small 0x2000 0 0)) = some 0x8384 := by decide
theorem test_lw_base_is_destination : regOf 1 (one 0x8C210000 (small 0x2000 0 0)) = some 0x81828384 := by decide
theorem test_r0_write_dropped : regOf 0 (one 0x00220020 (small 3 4 0)) = some 0 := by decide

theorem test_add_overflow_faults : faultOf (one 0x00220020 (small 0x7FFFFFFF 1 0)) =
    some ⟨.arithmeticOverflow, 0x1000, some 0x00220020, none⟩ := by decide
theorem test_sub_overflow_faults : faultOf (one 0x00221822 (small 0 0x80000000 0)) =
    some ⟨.arithmeticOverflow, 0x1000, some 0x00221822, none⟩ := by decide
theorem test_addi_overflow_faults : faultOf (one 0x2022FFFF (small 0x80000000 0 0)) =
    some ⟨.arithmeticOverflow, 0x1000, some 0x2022FFFF, none⟩ := by decide
theorem test_fault_keeps_pc : endOf (one 0x00221820 (small 0x7FFFFFFF 1 0)) = some (0x1000, .faulted) := by decide
theorem test_fault_record_keeps_ignored_bits : faultOf (one 0x002207E0 (small 0x7FFFFFFF 1 0)) =
    some ⟨.arithmeticOverflow, 0x1000, some 0x002207E0, none⟩ := by decide

theorem test_beq_taken : endOf (one 0x10220003 (small 7 7 0)) = some (0x1010, .running) := by decide
theorem test_beq_not_taken : endOf (one 0x10220003 (small 7 8 0)) = some (0x1004, .running) := by decide
theorem test_beq_wraps_and_halts : endOf (one 0x10008000 (small 0 0 0)) = some (0xFFFE1004, .halted) := by decide
theorem test_beq_to_staticData_halts : endOf (one 0x100003FF (small 0 0 0)) = some (0x2000, .halted) := by decide
theorem test_bne_taken : endOf (one 0x1422FFFF (small 1 2 0)) = some (0x1000, .running) := by decide
theorem test_bne_not_taken : endOf (one 0x14210005 (small 1 0 0)) = some (0x1004, .running) := by decide
theorem test_j : endOf (one 0x0800040C (small 0 0 0)) = some (0x1030, .running) := by decide
theorem test_j_past_text_halts : endOf (one 0x0BFFFFFF (small 0 0 0)) = some (0x0FFFFFFC, .halted) := by decide
theorem test_jal_jumps : endOf (one 0x0C000404 (small 0 0 0)) = some (0x1010, .running) := by decide
theorem test_jr_misaligned : endOf (one 0x00200008 (small 0x1002 0 0)) = some (0x1002, .running) := by decide
theorem test_jr_staticData_halts : endOf (one 0x00200008 (small 0x2000 0 0)) = some (0x2000, .halted) := by decide
theorem test_halt_keeps_pc : endOf (one 0xFFFFFFFF (small 0 0 0)) = some (0x1000, .halted) := by decide

theorem test_lhu_misaligned : faultOf (one 0x94220001 (small 0x2000 0 0)) =
    some ⟨.alignmentError, 0x1000, some 0x94220001, some 0x2001⟩ := by decide
theorem test_lw_past_end : faultOf (one 0x8C222000 (small 0x2000 0 0)) =
    some ⟨.outOfBounds, 0x1000, some 0x8C222000, some 0x4000⟩ := by decide
theorem test_lw_alignment_beats_bounds : faultOf (one 0x8C222002 (small 0x2000 0 0)) =
    some ⟨.alignmentError, 0x1000, some 0x8C222002, some 0x4002⟩ := by decide
theorem test_lw_wrapped_address : faultOf (one 0x8C02FFFC (small 0 0 0)) =
    some ⟨.outOfBounds, 0x1000, some 0x8C02FFFC, some 0xFFFFFFFC⟩ := by decide
theorem test_sw : bytesOf 0x2000 12 (one 0xAC230004 (small 0x2000 0 0xDEADBEEF)) =
    [0x81, 0x82, 0x83, 0x84, 0xDE, 0xAD, 0xBE, 0xEF, 0, 0, 0, 0] := by decide
theorem test_sh : bytesOf 0x2000 8 (one 0xA4230006 (small 0x2000 0 0xDEADBEEF)) =
    [0x81, 0x82, 0x83, 0x84, 0, 0, 0xBE, 0xEF] := by decide
theorem test_sb : bytesOf 0x2000 12 (one 0xA0230009 (small 0x2000 0 0xDEADBEEF)) =
    [0x81, 0x82, 0x83, 0x84, 0, 0, 0, 0, 0, 0xEF, 0, 0] := by decide
theorem test_sb_zero_unlists : bytesOf 0x2000 4 (one 0xA0200000 (small 0x2000 0 0)) = [0x00, 0x82, 0x83, 0x84] := by decide
theorem test_sw_misaligned_writes_nothing : bytesOf 0x2000 8 (one 0xAC230002 (small 0x2000 0 0xDEADBEEF)) =
    [0x81, 0x82, 0x83, 0x84, 0, 0, 0, 0] := by decide

theorem test_unmapped_illegal : faultOf (one 0x80010000 (small 0 0 0)) =
    some ⟨.illegalInstruction, 0x1000, some 0x80010000, none⟩ := by decide
theorem test_unmapped_nop : endOf (one 0x80010000 (State.resetWith { tc with unmapped := .nop })) =
    some (0x1004, .running) := by decide
theorem test_fetch_misaligned : faultOf (step { State.reset with pc := 0x1002 }) =
    some ⟨.alignmentError, 0x1002, none, some 0x1002⟩ := by decide
theorem test_reset_executes_zero_word : endOf (step State.reset) = some (0x1004, .running) := by decide
theorem test_step_outside_constraints : step (State.resetWith { tc with pcStart := 2 }) =
    .fault .configurationOutsideConstraints := by rfl

/-! ### The host's operations -/

theorem test_load_w1 : (match load ⟨[0x24010005, 0xFFFFFFFF], [0xCAFEF00D]⟩ State.reset with
    | .next (_, s) => (bytesFrom s.mem 0x1000 8, bytesFrom s.mem 0x2000 4)
    | _ => ([], [])) = ([0x24, 0x01, 0x00, 0x05, 0xFF, 0xFF, 0xFF, 0xFF], [0xCA, 0xFE, 0xF0, 0x0D]) := by decide
theorem test_hostStep_reports_halt : (match hostStep (State.reset.withFetchWord 32 0xFFFFFFFF) with
    | .next (o, _) => some o
    | _ => none) = some .halted := by decide
theorem test_codes : [statusCode .running, statusCode .halted, statusCode .faulted] = [0, 1, 2]
    ∧ [reasonCode .alignmentError, reasonCode .outOfBounds, reasonCode .arithmeticOverflow,
      reasonCode .illegalInstruction] = [1, 2, 3, 4] := by decide

/-! ### Witnesses: concrete states and operands that meet the hypotheses of the statements, one for each clause -/

theorem witness_EncodeOfDecodeIsTheWord : decode 0x00221820#32 = .ok (.add 1 2 3 0) := by decide

theorem witness_ResetLeavesTheStatedValues : tc.wf = true := by decide

theorem witness_RegisterZeroIsAlwaysObservedAsZero : ∃ t, exec (.add 1 2 0 0) (small 3 4 0) = .next t := ⟨_, rfl⟩

theorem witness_MemoriesThatReadAlikeAreEqual :
    Memory.wf [(4, 1#8)] = true ∧ Memory.wf (Memory.writeByte [] 4 1#8) = true
      ∧ ∀ a, Memory.readByte [(4, 1#8)] a = (Memory.writeByte [] 4 1#8).readByte a := ⟨by decide, by decide, fun _ => rfl⟩

/-- Misaligned, past the end, and the last address in bounds, for each width that has the clause. -/
theorem witness_MemWriteChecksThenWritesEachByte :
    ((0x2001#32).toNat % 2 ≠ 0 ∧ (0x2002#32).toNat % 4 ≠ 0)
      ∧ ((0x4000#32).toNat % 4 = 0 ∧ tc.endMem < (0x4000#32).toNat + 1 - 1)
      ∧ ((0x3FFF#32).toNat % 1 = 0 ∧ (0x3FFF#32).toNat + 1 - 1 ≤ tc.endMem)
      ∧ ((0x3FFE#32).toNat % 2 = 0 ∧ (0x3FFE#32).toNat + 2 - 1 ≤ tc.endMem)
      ∧ ((0x3FFC#32).toNat % 4 = 0 ∧ (0x3FFC#32).toNat + 4 - 1 ≤ tc.endMem) := by decide

theorem witness_NegativeAddressesAreOutOfBounds :
    (small 0 0 0).cfg.wf = true ∧ ((readReg (small 0 0 0) 1).toNat : Int) + (0xFFFF#16 : Imm16).toInt < 0 := by decide

theorem witness_ComparisonsWriteOneOrZero :
    (Instr.slti 1 2 0xFFFF).op ∈ [Op.slt, .sltu, .slti, .sltiu] ∧ destination (.slti 1 2 0xFFFF) = some 2
      ∧ (2 : RegIdx) ≠ 0#5 := by decide

/-- The greatest and the least result in range, for each of the three operations. -/
theorem witness_SignedArithmeticCompletesInRange :
    ((2 : Int) ^ 31 - 1 = (readReg (small 0x7FFFFFFE 1 0) 1).toInt + (readReg (small 0x7FFFFFFE 1 0) 2).toInt)
      ∧ (-(2 : Int) ^ 31 = (readReg (small 0xFFFFFFFF 0x7FFFFFFF 0) 1).toInt - (readReg (small 0xFFFFFFFF 0x7FFFFFFF 0) 2).toInt)
      ∧ ((2 : Int) ^ 31 - 1 = (readReg (small 0x7FFFFFFE 0 0) 1).toInt + (1#16 : Imm16).toInt) := by decide

/-- The first result past each end. -/
theorem witness_SignedArithmeticFaultsOutOfRange :
    ((2 : Int) ^ 31 = (readReg (small 0x7FFFFFFF 1 0) 1).toInt + (readReg (small 0x7FFFFFFF 1 0) 2).toInt)
      ∧ ((2 : Int) ^ 31 = (readReg (small 0 0x80000000 0) 1).toInt - (readReg (small 0 0x80000000 0) 2).toInt)
      ∧ (-(2 : Int) ^ 31 - 1 = (readReg (small 0x80000000 0 0) 1).toInt + (0xFFFF#16 : Imm16).toInt) := by decide

/-- The last address in bounds for each width; the stores, their loads and the fetch after them use it too. -/
theorem witness_LoadsComplete :
    (0x3FFF = (effectiveAddress (small 0x3FFF 0 0) 1 0).toNat ∧ 0x3FFF ≤ (small 0x3FFF 0 0).cfg.endMem)
      ∧ (0x3FFE = (effectiveAddress (small 0x3FFE 0 0) 1 0).toNat ∧ 0x3FFE % 2 = 0 ∧ 0x3FFE + 1 ≤ (small 0x3FFE 0 0).cfg.endMem)
      ∧ (0x3FFC = (effectiveAddress (small 0x3FFC 0 0) 1 0).toNat ∧ 0x3FFC % 4 = 0 ∧ 0x3FFC + 3 ≤ (small 0x3FFC 0 0).cfg.endMem) := by
  decide

theorem witness_StoresComplete :
    (0x3FFF = (effectiveAddress (small 0x4000 0 9) 1 0xFFFF).toNat ∧ 0x3FFF ≤ (small 0x4000 0 9).cfg.endMem)
      ∧ (0x3FFE = (effectiveAddress (small 0x4000 0 9) 1 0xFFFE).toNat ∧ 0x3FFE % 2 = 0 ∧ 0x3FFE + 1 ≤ (small 0x4000 0 9).cfg.endMem)
      ∧ (0x3FFC = (effectiveAddress (small 0x4000 0 9) 1 0xFFFC).toNat ∧ 0x3FFC % 4 = 0 ∧ 0x3FFC + 3 ≤ (small 0x4000 0 9).cfg.endMem) := by
  decide

/-- Misaligned in bounds and out of bounds. -/
theorem witness_MisalignedAccessesFault :
    (effectiveAddress (small 0x2000 0 0) 1 1).toNat % 2 ≠ 0 ∧ (effectiveAddress (small 0x4000 0 0) 1 1).toNat % 2 ≠ 0
      ∧ (effectiveAddress (small 0x2000 0 0) 1 2).toNat % 4 ≠ 0 := by decide

theorem witness_AccessesPastTheEndFault :
    tc.endMem < (effectiveAddress (small 0x4000 0 0) 1 0).toNat
      ∧ ((effectiveAddress (small 0x4000 0 0) 1 0).toNat % 2 = 0 ∧ tc.endMem < (effectiveAddress (small 0x4000 0 0) 1 0).toNat + 1)
      ∧ ((effectiveAddress (small 0x4000 0 0) 1 0).toNat % 4 = 0 ∧ tc.endMem < (effectiveAddress (small 0x4000 0 0) 1 0).toNat + 3) := by
  decide

theorem witness_FaultingLoadsAndStoresHaveNoEffect :
    Instr.lw 1 2 2 ∈ [Instr.lbu 1 2 2, .lhu 1 2 2, .lw 1 2 2, .sb 1 2 2, .sh 1 2 2, .sw 1 2 2]
      ∧ (small 0x2000 0 0).status = .running
      ∧ ∃ t, exec (.lw 1 2 2) (small 0x2000 0 0) = .next t ∧ t.status = .faulted := ⟨by decide, rfl, _, rfl, rfl⟩

theorem witness_StoredValuesLoadBack : 0x3FFC = (effectiveAddress (small 0x3FFC 0 7) 1 0).toNat ∧ (2 : RegIdx) ≠ 0#5
    ∧ 0x3FFC ≤ (small 0x3FFC 0 7).cfg.endMem ∧ 0x3FFC % 2 = 0 ∧ 0x3FFC + 1 ≤ (small 0x3FFC 0 7).cfg.endMem
    ∧ 0x3FFC % 4 = 0 ∧ 0x3FFC + 3 ≤ (small 0x3FFC 0 7).cfg.endMem := by decide

/-- A store to the word after the pc, and the state in which that word is fetched. -/
theorem witness_StoresAreSeenByTheNextFetch :
    (Instr.sw 1 3 4, 4) ∈ [(Instr.sb 1 3 4, 1), (.sh 1 3 4, 2), (.sw 1 3 4, 4)]
      ∧ 0x1004 = (effectiveAddress (small 0x1000 0 7) 1 4).toNat ∧ 0x1004 % 4 = 0
      ∧ 0x1004 + 4 - 1 ≤ (small 0x1000 0 7).cfg.endMem
      ∧ ∃ t, exec (.sw 1 3 4) (small 0x1000 0 7) = .next t ∧ t.pc.toNat % 4 = 0 ∧ t.pc.toNat + 3 ≤ t.cfg.endMem :=
  ⟨by decide, by decide, by decide, by decide, _, rfl, by decide, by decide⟩

theorem witness_StepRunsTheDecodedInstruction :
    let s := (small 5 7 0).withFetchWord 32 0x00221820
    s.cfg.wf = true ∧ s.status = .running ∧ s.pc.toNat % 4 = 0 ∧ s.pc.toNat + 3 ≤ s.cfg.endMem
      ∧ decodeBytes [s.mem.readByte s.pc.toNat, s.mem.readByte (s.pc.toNat + 1), s.mem.readByte (s.pc.toNat + 2),
        s.mem.readByte (s.pc.toNat + 3)] = .ok (.add 1 2 3 0) := by decide

theorem witness_FetchFaultsAreRecordedWithoutAWord :
    (State.reset.cfg.wf = true ∧ State.reset.status = .running) ∧ (0x1002#32).toNat % 4 ≠ 0
      ∧ (0x4000#32).toNat % 4 = 0 ∧ State.reset.cfg.endMem < (0x4000#32).toNat + 3 := by decide

theorem witness_UnmappedWordsFollowThePolicy :
    let s := State.reset.withFetchWord 32 0x80010000
    let n := (State.resetWith { tc with unmapped := .nop }).withFetchWord 32 0x80010000
    (s.cfg.wf = true ∧ s.status = .running ∧ fetch s = .ok 0x80010000#32 ∧ s.cfg.unmapped = .illegal)
      ∧ (n.cfg.wf = true ∧ n.status = .running ∧ fetch n = .ok 0x80010000#32 ∧ n.cfg.unmapped = .nop)
      ∧ decode 0x80010000#32 = .error (.unmappedOpcode 0x20) :=
  ⟨⟨by decide, by decide, rfl, by decide⟩, ⟨by decide, by decide, rfl, by decide⟩, by decide⟩

theorem witness_TerminalStepsChangeNothing :
    ({ State.reset with status := .halted } : State).cfg.wf = true
      ∧ ({ State.reset with status := .halted } : State).status ≠ .running := by decide

theorem witness_FaultsArePrecise :
    ({ State.reset with pc := 0x1002 } : State).status = .running
      ∧ ∃ t, step { State.reset with pc := 0x1002 } = .next t ∧ t.status = .faulted := ⟨rfl, _, rfl, rfl⟩

theorem witness_OnlyStoresChangeMemory :
    storesMemory (Instr.lw 1 2 0).op = false ∧ ∃ t, exec (.lw 1 2 0) (small 0x2000 0 0) = .next t := ⟨rfl, _, rfl⟩

theorem witness_OnlyTheDestinationRegisterChanges :
    destination (.jal 0x404) ≠ some 30 ∧ ∃ t, exec (.jal 0x404) (small 0 0 0) = .next t := ⟨by decide, _, rfl⟩

theorem witness_OnlyControlTransfersSetThePc :
    (Instr.sw 1 3 4).op ∉ [Op.jr, .j, .jal, .beq, .bne, .halt] ∧ (small 0x2000 0 7).status = .running
      ∧ ∃ t, exec (.sw 1 3 4) (small 0x2000 0 7) = .next t ∧ t.status ≠ .faulted := ⟨by decide, rfl, _, rfl, by decide⟩

theorem witness_OnlyJrMakesAMisalignedPc :
    (small 7 7 0).pc.toNat % 4 = 0 ∧ (Instr.beq 1 2 3).op ≠ .jr
      ∧ ∃ t, exec (.beq 1 2 3) (small 7 7 0) = .next t := ⟨by decide, by decide, _, rfl⟩

theorem witness_InstructionsButLoadsDoNotReadMemory : (Instr.sw 1 3 4).op ∉ [Op.lbu, .lhu, .lw] := by decide

theorem witness_EveryStepAnswersANextState : State.reset.cfg.wf = true := by decide

theorem witness_NoStepChangesTheConfiguration : ∃ t, step State.reset = .next t := ⟨_, rfl⟩

theorem witness_InvariantHoldsAtReset : tc.wf = true := by decide

/-- A running state that a step has reached. -/
def afterOne : State := { small 5 7 0 with fresh := false }

theorem witness_EveryStepKeepsTheInvariant : Inv afterOne ∧ ∃ t, step afterOne = .next t :=
  ⟨{ config := by decide
     memory_canonical := by decide
     memory_bounded := by decide
     register_zero := by decide
     running_in_text := fun _ => by decide
     halted_kind := nofun
     no_fault := fun _ => rfl
     fault_record := nofun
     fresh_as_reset := nofun }, _, rfl⟩

theorem witness_RunningFetchesStayInMemory :
    Inv afterOne ∧ afterOne.status = .running ∧ afterOne.pc.toNat % 4 = 0 :=
  ⟨witness_EveryStepKeepsTheInvariant.1, rfl, by decide⟩

/-- One word too many, in either sequence. -/
theorem witness_FailedLoadsChangeNothing :
    (State.reset.cfg.wf = true ∧ State.reset.fresh = true)
      ∧ State.reset.cfg.staticData - State.reset.cfg.pcStart < (List.replicate 1025 (0 : Word)).length * 4
      ∧ State.reset.cfg.dynamicData - State.reset.cfg.staticData < (List.replicate 1025 (0 : Word)).length * 4 := by
  refine ⟨by decide, ?_, ?_⟩ <;> rw [List.length_replicate] <;> decide

/-- Exactly as many words as fit. -/
theorem witness_LoadsPlaceEveryWord :
    (State.reset.cfg.wf = true ∧ State.reset.fresh = true)
      ∧ (List.replicate 1024 (0 : Word)).length * 4 ≤ State.reset.cfg.staticData - State.reset.cfg.pcStart
      ∧ (List.replicate 1024 (0 : Word)).length * 4 ≤ State.reset.cfg.dynamicData - State.reset.cfg.staticData := by
  refine ⟨by decide, ?_, ?_⟩ <;> rw [List.length_replicate] <;> decide

theorem witness_LoadsAfterAStepAreRefused : State.reset.status = .running ∧ ∃ t, step State.reset = .next t :=
  ⟨rfl, _, rfl⟩

theorem witness_EmptyMachineHaltsAtStaticData : tc.wf = true ∧ 0 < (tc.staticData - tc.pcStart) / 4 := by decide

theorem witness_EndedRunsIgnoreMoreFuel :
    let s := State.reset.withFetchWord 32 0xFFFFFFFF
    ∃ t, hostRun 1 s = .next (.halted, t) ∧ StepOutcome.halted ≠ .running := ⟨_, rfl, by decide⟩

/-- A zero word below the text region, and the last word of it. -/
theorem witness_ZeroWordsOnlyAdvanceThePc :
    (State.reset.cfg.wf = true ∧ State.reset.status = .running)
      ∧ ((0#32).toNat % 4 = 0 ∧ (0#32).toNat < State.reset.cfg.staticData)
      ∧ ((0x1FFC#32).toNat % 4 = 0 ∧ (0x1FFC#32).toNat < State.reset.cfg.staticData)
      ∧ ∀ a, a < 4 → State.reset.mem.readByte a = 0x00#8 ∧ State.reset.mem.readByte (0x1FFC + a) = 0x00#8 :=
  ⟨by decide, by decide, by decide, fun _ _ => ⟨rfl, rfl⟩⟩

/-- The last bytes of memory, and the first range that reaches past them. -/
theorem witness_ObservationsReadMemoryAsItIs :
    (0x3FFC + 4 ≤ State.reset.cfg.endMem + 1) ∧ (State.reset.cfg.endMem + 1 < 0x3FFC + 5)
      ∧ (0x3FFC + 3 ≤ State.reset.cfg.endMem) ∧ (State.reset.cfg.endMem < 0x3FFD + 3) := by decide

end Sys2Proof.Tests
end

section
/-! Reset (10_state.md R36 to R39): what the constraints on a configuration say, and the state that `new()` makes. -/

namespace Sys2Proof

/-- The constraints of 00_scope.md R9, one conjunct each. -/
theorem Config.wf_iff (c : Config) :
    c.wf = true ↔
      c.pcStart % 4 = 0 ∧ c.staticData % 4 = 0 ∧ c.dynamicData % 4 = 0 ∧ (c.endMem + 1) % 4 = 0 ∧
        c.pcStart < c.staticData ∧ c.staticData ≤ c.dynamicData ∧ c.dynamicData ≤ c.endMem + 1 ∧
        c.endMem + 1 ≤ 2 ^ 31 := by
  simp only [Config.wf, Bool.and_eq_true, decide_eq_true_eq, and_assoc]

namespace Machine

/-- PC_START of a configuration within the constraints fits in a word, so the pc at reset is PC_START itself. -/
theorem toNat_resetWith_pc {c : Config} (h : c.wf = true) : (State.resetWith c).pc.toNat = c.pcStart := by
  obtain ⟨-, -, -, -, hText, hStatic, hDynamic, hEnd⟩ := c.wf_iff.mp h
  have hWord : c.pcStart < 2 ^ 32 := by omega
  rw [resetWith_pc, BitVec.toNat_ofNat, Nat.mod_eq_of_lt hWord]

theorem resetWith_getElem_regs (c : Config) (r : Fin 32) : (State.resetWith c).regs[r] = 0#32 := by
  rw [resetWith_regs, Fin.getElem_fin, Vector.getElem_replicate]

theorem readByte_resetWith (c : Config) (a : Nat) : (State.resetWith c).mem.readByte a = 0x00#8 := by
  rw [resetWith_mem, readByte_nil, unlistedByte]

/-- Settles O6: only the pc needs the constraints, which keep PC_START below 2 ^ 32. -/
theorem resetLeavesTheStatedValues : Obligations.ResetLeavesTheStatedValues := by
  intro c hc
  exact ⟨resetWith_getElem_regs c, toNat_resetWith_pc hc, readByte_resetWith c, resetWith_status c, resetWith_fault c⟩

end Machine

end Sys2Proof
end

section
/-! Checked memory accesses (20_memory.md R45 to R50): what a read and a write answer, and the bytes a write commits. -/

namespace Sys2Proof.Machine

/-! ### Reads -/

/-- An access that answers `x` where its check passes, the checks in the order of R48. -/
theorem checkAccess_map {α : Type} (c : Config) (addr : Word) (n : Nat) (x : α) :
    (checkAccess c addr n).map (fun _ => x) =
      if addr.toNat % n ≠ 0 then .error ⟨.alignmentError, some addr⟩
      else if c.endMem < addr.toNat + n - 1 then .error ⟨.outOfBounds, some addr⟩ else .ok x := by
  rcases checkAccess_cases c addr n with ⟨hMis, h⟩ | ⟨hAl, hPast, h⟩ | ⟨hAl, hIn, h⟩
  · rw [h, if_pos hMis]; rfl
  · rw [h, if_neg (not_not.mpr hAl), if_pos hPast]; rfl
  · rw [h, if_neg (not_not.mpr hAl), if_neg (Nat.not_lt.mpr hIn)]; rfl

/-- Settles O9: the three widths of one checked access; a byte is aligned at every address. -/
theorem memReadChecksThenJoinsTheBytes : Obligations.MemReadChecksThenJoinsTheBytes := by
  intro s addr
  refine ⟨?byte, ?half, ?word⟩
  case byte =>
    have aligned : ¬ addr.toNat % 1 ≠ 0 := not_not.mpr (Nat.mod_one _)
    rw [memRead8, checkAccess_map, if_neg aligned, Nat.add_sub_cancel]
  case half => exact checkAccess_map s.cfg addr 2 (s.mem.readHalf addr.toNat)
  case word => exact checkAccess_map s.cfg addr 4 (s.mem.readWord addr.toNat)

/-! ### The bytes of a store -/

/-- The low `n` bytes of a word, most significant first: the bytes that R50 writes at `addr`, `addr + 1` and so on. -/
def lowBytes (v : Word) (n : Nat) : List Byte := List.ofFn fun i : Fin n => v.extractLsb' (8 * (n - i - 1)) 8

@[simp] theorem length_lowBytes (v : Word) (n : Nat) : (lowBytes v n).length = n := List.length_ofFn

theorem getElem_lowBytes (v : Word) (n i : Nat) (h : i < (lowBytes v n).length) :
    (lowBytes v n)[i] = v.extractLsb' (8 * (n - i - 1)) 8 := List.getElem_ofFn h

theorem bytes_byte (addr v : Word) : (Store.byte addr (v.setWidth 8)).bytes = lowBytes v 1 := by
  rw [Store.bytes, BitVec.setWidth_eq_extractLsb' (by decide)]
  rfl

theorem bytes_half (addr v : Word) : (Store.half addr (v.setWidth 16)).bytes = lowBytes v 2 := by
  rw [Store.bytes, bytesOfHalf, BitVec.extractLsb'_setWidth_of_le (by decide),
    BitVec.extractLsb'_setWidth_of_le (by decide)]
  rfl

theorem bytes_word (addr v : Word) : (Store.word addr v).bytes = lowBytes v 4 := rfl

/-! ### The commit of a store -/

@[simp] theorem commit_toMem_regs (st : Store) (s : State) : (commit (.toMem st) s).regs = s.regs := rfl

@[simp] theorem commit_toMem_mem (st : Store) (s : State) :
    (commit (.toMem st) s).mem = s.mem.writeBytes st.addr.toNat st.bytes := rfl

/-- The frame of a store: every byte outside its own. -/
theorem commit_toMem_sameMemoryOutside (st : Store) (s : State) :
    SameMemoryOutside s st.addr.toNat st.bytes.length (commit (.toMem st) s) :=
  fun b hb => readByte_writeBytes_outside st.bytes s.mem st.addr.toNat b hb

theorem readByte_commit_toMem {st : Store} {v : Word} {n i : Nat} (hBytes : st.bytes = lowBytes v n) (s : State)
    (hi : i < n) : (commit (.toMem st) s).mem.readByte (st.addr.toNat + i) = v.extractLsb' (8 * (n - i - 1)) 8 := by
  have hLength : i < (lowBytes v n).length := by rwa [length_lowBytes]
  rw [commit_toMem_mem, hBytes, readByte_writeBytes_inside _ _ _ _ hLength, getElem_lowBytes]

/-! ### Writes -/

/-- Settles O10: each of the three stores writes the low bytes of the value at its own address, so that one argument
over the list of bytes serves every width. -/
theorem memWriteChecksThenWritesEachByte : Obligations.MemWriteChecksThenWritesEachByte := by
  intro s addr v st n hStore
  obtain ⟨hAddr, hBytes⟩ : st.addr = addr ∧ st.bytes = lowBytes v n := by
    rcases hStore with ⟨rfl, rfl⟩ | ⟨rfl, rfl⟩ | ⟨rfl, rfl⟩
    · exact ⟨rfl, bytes_byte addr v⟩
    · exact ⟨rfl, bytes_half addr v⟩
    · exact ⟨rfl, bytes_word addr v⟩
  have hLength : st.bytes.length = n := by rw [hBytes, length_lowBytes]
  subst hAddr
  have hWrite : memWrite s st = (checkAccess s.cfg st.addr n).map fun _ => Effect.toMem st := by
    rw [memWrite, hLength]
  refine ⟨fun hMis => ?misaligned, fun hAl hPast => ?outOfBounds,
    fun hAl hIn => ⟨.toMem st, ?ok, ?regs, ?bytes, ?frame⟩⟩
  case misaligned => rw [hWrite, checkAccess_misaligned hMis]; rfl
  case outOfBounds => rw [hWrite, checkAccess_outOfBounds hAl hPast]; rfl
  case ok => rw [hWrite, checkAccess_ok hAl hIn]; rfl
  case regs => exact commit_toMem_regs st s
  case bytes => exact fun i hi => readByte_commit_toMem hBytes s hi
  case frame => exact hLength ▸ commit_toMem_sameMemoryOutside st s

end Sys2Proof.Machine
end

section
/-! The fetch loop (40_fetch_loop.md R95 to R110): how a running engine begins a step, where its fetch faults, and what
is observed of register 0. -/

namespace Sys2Proof.Machine

/-! ### The observed value of register 0 -/

/-- Settles O7: what is observed of register 0 does not depend on the state, so no instruction can change it. -/
theorem registerZeroIsAlwaysObservedAsZero : Obligations.RegisterZeroIsAlwaysObservedAsZero := by
  have observed (s : State) : observeReg s 0#5 = 0#32 := readReg_zero s
  exact ⟨observed, fun _ _ t _ => observed t⟩

/-! ### A step in `Running` -/

/-- Within the constraints of R9 a running engine makes one pass of the loop. -/
theorem step_running {s : State} (hWf : s.cfg.wf = true) (hRun : s.status = .running) : step s = cycle s := by
  rw [step, loopStep, if_pos hWf, hRun]

theorem cycle_of_fetch_error {s : State} {f : FaultInfo} (h : fetch s = .error f) :
    cycle s = .next (takeFault f none s) := by
  rw [cycle, h]

/-! ### Faults of the fetch -/

/-- A fetch fails where its checked access does, with the same fault (20_memory.md R51). -/
theorem fetch_of_checkAccess_error {s : State} {f : FaultInfo} (h : checkAccess s.cfg s.pc 4 = .error f) :
    fetch s = .error f := by
  rw [fetch, memRead32, h]
  rfl

theorem fetch_misaligned {s : State} (h : s.pc.toNat % 4 ≠ 0) : fetch s = .error ⟨.alignmentError, some s.pc⟩ :=
  fetch_of_checkAccess_error (checkAccess_misaligned h)

theorem fetch_outOfBounds {s : State} (hAl : s.pc.toNat % 4 = 0) (hPast : s.cfg.endMem < s.pc.toNat + 3) :
    fetch s = .error ⟨.outOfBounds, some s.pc⟩ :=
  fetch_of_checkAccess_error (checkAccess_outOfBounds hAl hPast)

/-- Taking a fault writes the status and the record, and nothing else (60_exceptions.md R165 to R167). -/
theorem takeFault_faultedAs (f : FaultInfo) (instr : Option Word) (s : State) :
    FaultedAs s ⟨f.reason, s.pc, instr, f.addr⟩ (takeFault f instr s) :=
  ⟨takeFault_status f instr s, takeFault_fault f instr s, takeFault_regs f instr s, takeFault_mem f instr s,
    takeFault_pc f instr s, takeFault_cfg f instr s, takeFault_fresh f instr s⟩

/-- A step of a running engine whose fetch fails takes that fault, with no word in the record. -/
theorem step_faults_of_fetch_error {s : State} {f : FaultInfo} (hWf : s.cfg.wf = true) (hRun : s.status = .running)
    (hFetch : fetch s = .error f) : ∃ t, step s = .next t ∧ FaultedAs s ⟨f.reason, s.pc, none, f.addr⟩ t := by
  refine ⟨takeFault f none s, ?_, takeFault_faultedAs f none s⟩
  rw [step_running hWf hRun, cycle_of_fetch_error hFetch]

/-- Settles O31: the two checks of an access, alignment first, are the two ways in which a fetch can fail. -/
theorem fetchFaultsAreRecordedWithoutAWord : Obligations.FetchFaultsAreRecordedWithoutAWord := by
  intro s hWf hRun
  refine ⟨fun hMis => ?misaligned, fun hAl hPast => ?outOfBounds⟩
  case misaligned => exact step_faults_of_fetch_error hWf hRun (fetch_misaligned hMis)
  case outOfBounds => exact step_faults_of_fetch_error hWf hRun (fetch_outOfBounds hAl hPast)

end Sys2Proof.Machine
end

section
/-! Comparisons (41_alu_register.md R123, R124, R129; 42_alu_immediate.md R135, R136): each commits one register write,
whose value is `bool01` of its condition. -/

namespace Sys2Proof.Machine

/-! ### The commit of a register write -/

theorem readReg_commit_toReg (i : RegIdx) (v : Word) (s : State) (r : RegIdx) :
    readReg (commit (.toReg i v) s) r = if r = 0#5 then 0#32 else if r = i then v else readReg s r :=
  readReg_of_writeReg rfl r

/-- A written register other than `r0` holds what was written (10_state.md R22). -/
theorem readReg_commit_toReg_same {i : RegIdx} (hi : i ≠ 0#5) (v : Word) (s : State) :
    readReg (commit (.toReg i v) s) i = v := by
  rw [readReg_commit_toReg, if_neg hi, if_pos rfl]

/-! ### The four comparisons -/

theorem exec_slt (rs rt rd : RegIdx) (shamt : Shamt) (s : State) :
    exec (.slt rs rt rd shamt) s =
      .next (commit (.toReg rd (bool01 (lessSigned (readReg s rs) (readReg s rt)))) s) := rfl

theorem exec_sltu (rs rt rd : RegIdx) (shamt : Shamt) (s : State) :
    exec (.sltu rs rt rd shamt) s =
      .next (commit (.toReg rd (bool01 (lessUnsigned (readReg s rs) (readReg s rt)))) s) := rfl

theorem exec_slti (rs rt : RegIdx) (imm : Imm16) (s : State) :
    exec (.slti rs rt imm) s =
      .next (commit (.toReg rt (bool01 (lessSigned (readReg s rs) (immSigned imm)))) s) := rfl

theorem exec_sltiu (rs rt : RegIdx) (imm : Imm16) (s : State) :
    exec (.sltiu rs rt imm) s =
      .next (commit (.toReg rt (bool01 (lessUnsigned (readReg s rs) (immZero imm)))) s) := rfl

/-- What the four comparisons share: whatever the condition is, `bool01` of it goes to the destination. -/
theorem exec_comparison {i : Instr} {d : RegIdx} (hOp : i.op ∈ [.slt, .sltu, .slti, .sltiu])
    (hDest : destination i = some d) (s : State) : ∃ c, exec i s = .next (commit (.toReg d (bool01 c)) s) := by
  cases i
  case slt rs rt rd shamt =>
    obtain rfl : rd = d := Option.some.inj hDest
    exact ⟨_, exec_slt rs rt rd shamt s⟩
  case sltu rs rt rd shamt =>
    obtain rfl : rd = d := Option.some.inj hDest
    exact ⟨_, exec_sltu rs rt rd shamt s⟩
  case slti rs rt imm =>
    obtain rfl : rt = d := Option.some.inj hDest
    exact ⟨_, exec_slti rs rt imm s⟩
  case sltiu rs rt imm =>
    obtain rfl : rt = d := Option.some.inj hDest
    exact ⟨_, exec_sltiu rs rt imm s⟩
  all_goals simp [Instr.op] at hOp

/-- Settles O16: the destination, not being `r0`, reads back the `bool01` that was written to it. -/
theorem comparisonsWriteOneOrZero : Obligations.ComparisonsWriteOneOrZero := by
  intro i s d hOp hDest hd
  obtain ⟨c, hExec⟩ := exec_comparison hOp hDest s
  refine ⟨_, hExec, ?_⟩
  rw [readReg_commit_toReg_same hd]
  exact (bool01_cases c).symm

end Sys2Proof.Machine
end

section
/-! Faulting loads and stores (44_load_store.md R161): each of the six is one checked access at its effective address,
and that check is its only source of faults. -/

namespace Sys2Proof.Machine

/-! ### The six instructions as one checked access -/

/-- A load turns the value of its checked read into its effect: one check with that effect. -/
theorem checkAccess_map_map {α : Type} (c : Config) (addr : Word) (n : Nat) (x : α) (toEffect : α → Effect) :
    ((checkAccess c addr n).map fun _ => x).map toEffect = (checkAccess c addr n).map fun _ => toEffect x := by
  cases checkAccess c addr n with
  | error f => rfl
  | ok u => rfl

/-- A load or a store checks its access of some width `n` at the effective address, and has one effect `e` if the
check passes. -/
theorem exec_loadStore {i : Instr} {rs rt : RegIdx} {imm : Imm16}
    (hi : i ∈ [.lbu rs rt imm, .lhu rs rt imm, .lw rs rt imm, .sb rs rt imm, .sh rs rt imm, .sw rs rt imm])
    (s : State) :
    ∃ n e, exec i s =
      complete (encode i) ((checkAccess s.cfg (effectiveAddress s rs imm) n).map fun _ => e) s := by
  simp only [List.mem_cons, List.not_mem_nil, or_false] at hi
  rcases hi with rfl | rfl | rfl | rfl | rfl | rfl
  · exact ⟨1, _, congrArg (complete _ · s) (checkAccess_map_map ..)⟩
  · exact ⟨2, _, congrArg (complete _ · s) (checkAccess_map_map ..)⟩
  · exact ⟨4, _, congrArg (complete _ · s) (checkAccess_map_map ..)⟩
  · exact ⟨1, _, rfl⟩
  · exact ⟨2, _, rfl⟩
  · exact ⟨4, _, rfl⟩

/-- A load or a store takes a fault that records its effective address, or commits an effect. -/
theorem exec_loadStore_cases {i : Instr} {rs rt : RegIdx} {imm : Imm16}
    (hi : i ∈ [.lbu rs rt imm, .lhu rs rt imm, .lw rs rt imm, .sb rs rt imm, .sh rs rt imm, .sw rs rt imm])
    (s : State) :
    (∃ reason, exec i s = .next (takeFault ⟨reason, some (effectiveAddress s rs imm)⟩ (some (encode i)) s)) ∨
      ∃ e, exec i s = .next (commit e s) := by
  obtain ⟨n, e, hExec⟩ := exec_loadStore hi s
  rcases checkAccess_cases s.cfg (effectiveAddress s rs imm) n with ⟨-, hCheck⟩ | ⟨-, -, hCheck⟩ | ⟨-, -, hCheck⟩ <;>
    rw [hCheck] at hExec
  · exact .inl ⟨.alignmentError, hExec⟩
  · exact .inl ⟨.outOfBounds, hExec⟩
  · exact .inr ⟨e, hExec⟩

/-! ### The fault and its effects -/

/-- A commit does not fault: it leaves `Running` only for `Halted` (40_fetch_loop.md R104). -/
theorem commit_status_ne_faulted {s : State} (hRun : s.status = .running) (e : Effect) :
    (commit e s).status ≠ .faulted := by
  rw [commit_status, hRun]
  rcases regionStatus_cases s.cfg (nextPc e.target s.pc) .running with ⟨-, h⟩ | ⟨-, h⟩ <;> rw [h] <;> decide

/-- Settles O26: a commit cannot end `Faulted`, so the instruction took a fault, which writes the status and the record
alone. -/
theorem faultingLoadsAndStoresHaveNoEffect : Obligations.FaultingLoadsAndStoresHaveNoEffect := by
  intro i s t rs rt imm hi hRun hExec hFaulted
  rcases exec_loadStore_cases hi s with ⟨reason, hFault⟩ | ⟨e, hCommit⟩
  · obtain rfl := Host.Outcome.next.inj (hFault.symm.trans hExec)
    exact ⟨takeFault_regs _ _ s, takeFault_mem _ _ s, takeFault_pc _ _ s, _, takeFault_fault _ _ s, rfl⟩
  · obtain rfl := Host.Outcome.next.inj (hCommit.symm.trans hExec)
    exact absurd hFaulted (commit_status_ne_faulted hRun e)

end Sys2Proof.Machine
end

section
/-! `load` (70_reset_and_hazards.md R188 to R192): its size bounds, where it places the words of a program, and what it
leaves as it was. -/

namespace Sys2Proof.Machine

/-! ### What `load` answers before the first step -/

/-- The two size bounds of R188. -/
theorem fits_iff (c : Config) (p : Program) :
    p.fits c = true ↔
      p.instructions.length * 4 ≤ c.staticData - c.pcStart ∧ p.data.length * 4 ≤ c.dynamicData - c.staticData := by
  simp only [Program.fits, Bool.and_eq_true, decide_eq_true_eq]

theorem load_of_fits {p : Program} {s : State} (hWf : s.cfg.wf = true) (hFresh : s.fresh = true)
    (hFits : p.fits s.cfg = true) : load p s = .next (.ok, { s with mem := loadedMemory s.cfg p s.mem }) := by
  rw [load, if_pos hWf, if_pos hFresh, if_pos hFits]

theorem load_of_not_fits {p : Program} {s : State} (hWf : s.cfg.wf = true) (hFresh : s.fresh = true)
    (hFits : ¬ p.fits s.cfg = true) : load p s = .next (.programTooLarge, s) := by
  rw [load, if_pos hWf, if_pos hFresh, if_neg hFits]

/-- Settles O45: either bound exceeded means that the program does not fit. -/
theorem failedLoadsChangeNothing : Obligations.FailedLoadsChangeNothing := by
  intro p s hWf hFresh hTooLarge
  refine load_of_not_fits hWf hFresh fun hFits => ?_
  obtain ⟨hInstr, hData⟩ := (fits_iff s.cfg p).mp hFits
  rcases hTooLarge with hInstrPast | hDataPast
  · exact absurd hInstr (Nat.not_le.mpr hInstrPast)
  · exact absurd hData (Nat.not_le.mpr hDataPast)

/-! ### Words placed one after another -/

/-- A word read depends on its own four bytes alone. -/
theorem readWord_congr {m n : Memory} {a : Nat} (h : ∀ k < 4, m.readByte (a + k) = n.readByte (a + k)) :
    m.readWord a = n.readWord a := by
  have h0 : m.readByte a = n.readByte a := h 0 (by decide)
  rw [Memory.readWord, Memory.readWord, h0, h 1 (by decide), h 2 (by decide), h 3 (by decide)]

/-- A byte that none of the words covers reads as before. -/
theorem readByte_placeWords_outside (ws : List Word) (m : Memory) (a b : Nat)
    (h : b < a ∨ a + 4 * ws.length ≤ b) : (placeWords a ws m).readByte b = m.readByte b := by
  induction ws generalizing m a with
  | nil => rfl
  | cons w ws ih =>
    rw [List.length_cons] at h
    rw [placeWords, ih _ _ (by omega), readByte_placeWord_outside _ _ _ _ (by omega)]

/-- A word that none of the words placed overlaps reads as before. -/
theorem readWord_placeWords_outside (ws : List Word) (m : Memory) (a b : Nat)
    (h : b + 4 ≤ a ∨ a + 4 * ws.length ≤ b) : (placeWords a ws m).readWord b = m.readWord b :=
  readWord_congr fun k hk => readByte_placeWords_outside ws m a (b + k) (by omega)

/-- Each word placed reads back, for the words placed after it lie above it. -/
theorem readWord_placeWords_inside (ws : List Word) (m : Memory) (a i : Nat) (h : i < ws.length) :
    (placeWords a ws m).readWord (a + 4 * i) = ws[i] := by
  induction ws generalizing m a i with
  | nil => simp at h
  | cons w ws ih =>
    rw [placeWords]
    cases i with
    | zero =>
      rw [readWord_placeWords_outside _ _ _ _ (.inl (by omega))]
      exact readWord_placeWord m a w
    | succ i =>
      rw [show a + 4 * (i + 1) = a + 4 + 4 * i by omega]
      exact ih (placeWord a w m) (a + 4) i (Nat.lt_of_succ_lt_succ h)

/-! ### The memory of a loaded program -/

/-- A byte that no word of the program covers keeps its value. -/
theorem readByte_loadedMemory_outside {c : Config} {p : Program} (m : Memory) {b : Nat}
    (hInstr : b < c.pcStart ∨ c.pcStart + 4 * p.instructions.length ≤ b)
    (hData : b < c.staticData ∨ c.staticData + 4 * p.data.length ≤ b) :
    (loadedMemory c p m).readByte b = m.readByte b := by
  rw [loadedMemory, readByte_placeWords_outside _ _ _ _ hData, readByte_placeWords_outside _ _ _ _ hInstr]

/-- Instructions that end by STATIC_DATA are not overwritten by the data. -/
theorem readWord_loadedMemory_instructions {c : Config} {p : Program} (m : Memory)
    (hText : c.pcStart + 4 * p.instructions.length ≤ c.staticData) {i : Nat} (h : i < p.instructions.length) :
    (loadedMemory c p m).readWord (c.pcStart + 4 * i) = p.instructions[i] := by
  rw [loadedMemory, readWord_placeWords_outside _ _ _ _ (.inl (by omega))]
  exact readWord_placeWords_inside p.instructions m c.pcStart i h

theorem readWord_loadedMemory_data (c : Config) {p : Program} (m : Memory) {j : Nat} (h : j < p.data.length) :
    (loadedMemory c p m).readWord (c.staticData + 4 * j) = p.data[j] :=
  readWord_placeWords_inside p.data _ c.staticData j h

/-! ### The checks of its writes -/

/-- R9 keeps memory below 2 ^ 31, so an aligned word within it passes the checks of its access. -/
theorem checkAccess_word_within {c : Config} (hWf : c.wf = true) {a : Nat} (hAl : a % 4 = 0)
    (hIn : a + 3 ≤ c.endMem) : checkAccess c (BitVec.ofNat 32 a) 4 = .ok () := by
  obtain ⟨-, -, -, -, -, -, -, hEnd⟩ := c.wf_iff.mp hWf
  have hAddr : (BitVec.ofNat 32 a).toNat = a := by
    rw [BitVec.toNat_ofNat, Nat.mod_eq_of_lt (by omega)]
  exact checkAccess_ok (by rw [hAddr, hAl]) (by rw [hAddr]; exact hIn)

/-- Settles O46: the text ends by STATIC_DATA and the data by DYNAMIC_DATA, so that the two runs of words are disjoint
and lie within memory. -/
theorem loadsPlaceEveryWord : Obligations.LoadsPlaceEveryWord := by
  intro p s hWf hFresh hInstr hData
  obtain ⟨hPcAl, hStaticAl, -, -, hTextLt, hStaticLe, hDynamicLe, -⟩ := s.cfg.wf_iff.mp hWf
  have hTextEnd : s.cfg.pcStart + 4 * p.instructions.length ≤ s.cfg.staticData := by omega
  have hDataEnd : s.cfg.staticData + 4 * p.data.length ≤ s.cfg.dynamicData := by omega
  refine ⟨loadedMemory s.cfg p s.mem, load_of_fits hWf hFresh ((fits_iff s.cfg p).mpr ⟨hInstr, hData⟩),
    fun i hi => ⟨?instruction, ?instructionCheck⟩, fun j hj => ⟨?data, ?dataCheck⟩,
    fun a hNoInstr hNoData => ⟨?frame, fun hReset => ?zero⟩⟩
  case instruction => exact readWord_loadedMemory_instructions s.mem hTextEnd hi
  case instructionCheck => exact checkAccess_word_within hWf (by omega) (by omega)
  case data => exact readWord_loadedMemory_data s.cfg s.mem hj
  case dataCheck => exact checkAccess_word_within hWf (by omega) (by omega)
  case frame => exact readByte_loadedMemory_outside s.mem hNoInstr hNoData
  case zero =>
    rw [readByte_loadedMemory_outside s.mem hNoInstr hNoData, hReset]
    exact readByte_resetWith s.cfg a

end Sys2Proof.Machine
end

section
/-! The decoder and the encoder (30_encoding.md): what a word with a given opcode and func decodes to, that decoding and
encoding undo each other, and where the decoder rejects. -/

namespace Sys2Proof

/-! ### Decoding by opcode and func (R74, R75) -/

/-- A word whose opcode is 0 is read by the table of R75. -/
theorem decode_of_opcode_zero {w : Word} (h : opcodeOf w = 0x00#6) : decode w = decodeR w := by
  have hNotSentinel : w ≠ sentinel := ne_sentinel_of_opcode (by rw [h]; decide)
  simp [decode, hNotSentinel, h]

theorem decode_encodeR (rs rt rd : RegIdx) (shamt : Shamt) (func : Code6) :
    decode (encodeR rs rt rd shamt func) = decodeR (encodeR rs rt rd shamt func) :=
  decode_of_opcode_zero (opcodeOf_encodeR rs rt rd shamt func)

theorem encodeI_ne_sentinel {opcode : Code6} (h : opcode ≠ 0x3F#6) (rs rt : RegIdx) (imm : Imm16) :
    encodeI opcode rs rt imm ≠ sentinel :=
  ne_sentinel_of_opcode (by rwa [opcodeOf_encodeI])

theorem encodeJ_ne_sentinel {opcode : Code6} (h : opcode ≠ 0x3F#6) (address : Target26) :
    encodeJ opcode address ≠ sentinel :=
  ne_sentinel_of_opcode (by rwa [opcodeOf_encodeJ])

/-! ### The round trip -/

/-- The decoder finds every field of an encoded instruction where its format put it, and no format but the sentinel has
the sentinel's opcode. -/
theorem decode_encode (i : Instr) : decode (encode i) = .ok i := by
  cases i
  case halt => rfl
  case j | jal => simp [encode, decode, encodeJ_ne_sentinel]
  case beq | bne | addi | addiu | slti | sltiu | andi | ori | lui | lw | lbu | lhu | sb | sh | sw =>
    simp [encode, decode, encodeI_ne_sentinel]
  all_goals simp [encode, decode_encodeR, decodeR]

/-- Settles O1: the bytes of a word decode as the word does. -/
theorem decodeOfEncodeIsTheInstruction : Obligations.DecodeOfEncodeIsTheInstruction := by
  intro i
  refine ⟨decode_encode i, ?_⟩
  rw [encodeBytes, decodeBytes_bytesOfWord, decode_encode]

/-- In each row of the table of R75, the instruction has the fields of the word and the func that selected the row. -/
theorem encode_of_decodeR {w : Word} {i : Instr} (hOpcode : opcodeOf w = 0x00#6) (h : decodeR w = .ok i) :
    encode i = w := by
  have fields := encodeR_fields hOpcode
  unfold decodeR at h
  split at h
  case h_13 => cases h
  all_goals
    next hFunc =>
    rw [hFunc] at fields
    cases h
    exact fields

/-- In each row of the tables of R76 and R77, the instruction has the fields of the word and the opcode that selected
the row. -/
theorem encode_of_decode {w : Word} {i : Instr} (h : decode w = .ok i) : encode i = w := by
  have fieldsI := encodeI_fields w
  have fieldsJ := encodeJ_fields w
  unfold decode at h
  split at h
  case isTrue hSentinel =>
    cases h
    exact hSentinel.symm
  case isFalse =>
    split at h
    case h_1 hOpcode => exact encode_of_decodeR hOpcode h
    case h_2 hOpcode | h_3 hOpcode =>
      rw [hOpcode] at fieldsJ
      cases h
      exact fieldsJ
    case h_19 => cases h
    all_goals
      next hOpcode =>
      rw [hOpcode] at fieldsI
      cases h
      exact fieldsI

/-- Settles O2. -/
theorem encodeOfDecodeIsTheWord : Obligations.EncodeOfDecodeIsTheWord := fun _ _ h => encode_of_decode h

/-! ### Where the decoder rejects (R79) -/

theorem decodeR_error_iff (w : Word) :
    (∃ e, decodeR w = .error e) ↔ funcOf w ∉
      [0x00#6, 0x02#6, 0x08#6, 0x20#6, 0x21#6, 0x22#6, 0x23#6, 0x24#6, 0x25#6, 0x27#6, 0x2A#6, 0x2B#6] := by
  unfold decodeR
  split
  case h_13 =>
    refine iff_of_true ⟨_, rfl⟩ ?_
    simp only [List.mem_cons, List.not_mem_nil, or_false, not_or]
    and_intros <;> assumption
  all_goals simp [*]

/-- Settles O3: the sentinel is tested first, opcode 0 leaves the question to the func, and each other row of the tables
has its opcode in the list. -/
theorem unmappedWordsAreThoseOutsideTheLists : Obligations.UnmappedWordsAreThoseOutsideTheLists := by
  intro w
  change (∃ e, decode w = .error e) ↔ w ≠ sentinel ∧ ((opcodeOf w = 0x00#6 ∧ funcOf w ∉ _) ∨ opcodeOf w ∉ _)
  by_cases hSentinel : w = sentinel
  · simp [decode, hSentinel]
  by_cases hZero : opcodeOf w = 0x00#6
  · rw [decode_of_opcode_zero hZero, decodeR_error_iff]
    simp [hSentinel, hZero]
  · rw [decode, if_neg hSentinel]
    split
    case h_1 h => exact absurd h hZero
    case h_19 =>
      refine iff_of_true ⟨_, rfl⟩ ⟨hSentinel, .inr ?_⟩
      simp only [List.mem_cons, List.not_mem_nil, or_false, not_or]
      and_intros <;> assumption
    all_goals simp [*]

/-! ### The rows of R78 -/

/-- Every instruction's word matches the row of its operation. -/
theorem encode_matches_row (i : Instr) : encode i &&& i.op.mask = i.op.pattern := by
  cases i
  case halt => exact Laws.RowMatch.halt
  case j | jal => exact Laws.rowMatch_J ..
  case beq | bne | addi | addiu | slti | sltiu | andi | ori | lui | lw | lbu | lhu | sb | sh | sw =>
    exact Laws.rowMatch_I ..
  all_goals exact Laws.rowMatch_R ..

/-- A row of the I or J format fixes the opcode. -/
theorem opcodeOf_of_row {w p : Word} (h : w &&& 0xFC000000#32 = p) : opcodeOf w = opcodeOf p := by
  rw [← h, opcodeOf, opcodeOf, BitVec.extractLsb'_and]
  exact (BitVec.and_allOnes).symm

/-- A row of the R format fixes the opcode and the func. -/
theorem codes_of_row {w p : Word} (h : w &&& 0xFC00003F#32 = p) :
    opcodeOf w = opcodeOf p ∧ funcOf w = funcOf p := by
  rw [← h, opcodeOf, opcodeOf, funcOf, funcOf, BitVec.extractLsb'_and, BitVec.extractLsb'_and]
  exact ⟨(BitVec.and_allOnes).symm, (BitVec.and_allOnes).symm⟩

/-- The codes that a row fixes are those by which the decoder selects its operation. -/
theorem decode_of_row {w : Word} {o : Op} (h : w &&& o.mask = o.pattern) : ∃ i, decode w = .ok i ∧ i.op = o := by
  cases o
  case halt =>
    have hSentinel : w = sentinel := (BitVec.and_allOnes).symm.trans h
    exact ⟨.halt, by rw [hSentinel]; rfl, rfl⟩
  case beq | bne | addi | addiu | slti | sltiu | andi | ori | lui | lw | lbu | lhu | sb | sh | sw | j | jal =>
    have hOpcode := opcodeOf_of_row h
    have hNotSentinel : w ≠ sentinel := ne_sentinel_of_opcode (by rw [hOpcode]; decide)
    rw [decode, if_neg hNotSentinel, hOpcode]
    exact ⟨_, rfl, rfl⟩
  all_goals
    obtain ⟨hOpcode, hFunc⟩ := codes_of_row h
    rw [decode_of_opcode_zero hOpcode, decodeR, hFunc]
    exact ⟨_, rfl, rfl⟩

/-- Settles O4: a decoded word is the encoding of its instruction, which matches the row. -/
theorem decodedOperationIsTheMatchingRow : Obligations.DecodedOperationIsTheMatchingRow := by
  intro w o
  constructor
  · rintro ⟨i, hDecode, rfl⟩
    rw [← encode_of_decode hDecode]
    exact encode_matches_row i
  · exact decode_of_row

/-- Settles O5. -/
theorem specWordsDecodeAsListed : Obligations.SpecWordsDecodeAsListed := by
  unfold Obligations.SpecWordsDecodeAsListed
  decide

end Sys2Proof
end

section
/-! Memory as its readers see it (10_state.md R29; 20_memory.md R40 to R44, R58; 40_fetch_loop.md R109): the canonical
form is determined by the bytes read, the widths are views of one array, and the host observes the bytes as they are. -/

namespace Sys2Proof.Machine

/-! ### The canonical form is determined by what it reads -/

theorem readByte_of_not_listed {m : Memory} {a : Nat} (h : ∀ cell ∈ m, cell.1 ≠ a) : m.readByte a = unlistedByte := by
  induction m with
  | nil => exact readByte_nil a
  | cons cell rest ih =>
    rw [readByte_cons, if_neg (h cell List.mem_cons_self)]
    exact ih fun c hc => h c (List.mem_cons_of_mem _ hc)

/-- A canonical memory lists exactly the addresses that do not read as unlisted, each with the byte it reads. -/
theorem mem_iff_readByte {m : Memory} (h : m.wf = true) (cell : Host.Cell) :
    cell ∈ m ↔ m.readByte cell.1 = cell.2 ∧ cell.2 ≠ unlistedByte := by
  obtain ⟨hSorted, hListed⟩ := (wf_iff m).mp h
  clear h
  induction m with
  | nil => simpa using fun h : unlistedByte = cell.2 => h.symm
  | cons c rest ih =>
    obtain ⟨hAbove, hSortedRest⟩ := List.pairwise_cons.mp hSorted
    have hRest := ih hSortedRest fun d hd => hListed d (List.mem_cons_of_mem _ hd)
    rw [List.mem_cons, hRest, readByte_cons]
    by_cases hAddr : c.1 = cell.1
    · have hUnlisted : Memory.readByte rest cell.1 = unlistedByte :=
        readByte_of_not_listed fun d hd => hAddr ▸ (hAbove d hd).ne'
      have hByte : c.2 ≠ unlistedByte := hListed c List.mem_cons_self
      rw [if_pos hAddr, hUnlisted]
      constructor
      · rintro (rfl | ⟨hEq, hNe⟩)
        · exact ⟨rfl, hByte⟩
        · exact absurd hEq.symm hNe
      · rintro ⟨hEq, -⟩
        exact .inl (Prod.ext hAddr.symm hEq.symm)
    · have hCell : cell ≠ c := fun e => hAddr (congrArg Prod.fst e.symm)
      rw [if_neg hAddr, or_iff_right hCell]

/-- Settles O8: the two lists are sorted by address and have the same members. -/
theorem memoriesThatReadAlikeAreEqual : Obligations.MemoriesThatReadAlikeAreEqual := by
  intro m m' hWf hWf' hRead
  have irrefl : Std.Irrefl fun c d : Host.Cell => c.1 < d.1 := ⟨fun c => Nat.lt_irrefl c.1⟩
  refine ((wf_iff m).mp hWf).1.eq_of_mem_iff ((wf_iff m').mp hWf').1 fun cell => ?_
  rw [mem_iff_readByte hWf, mem_iff_readByte hWf', hRead]

/-! ### The views of a word and a half-word (R40, R41, R44) -/

/-- Byte `k` of a word read is the byte at the address `k` further on. -/
theorem extractLsb'_readWord (m : Memory) (a : Nat) {k : Nat} (hk : k < 4) :
    (m.readWord a).extractLsb' (8 * (3 - k)) 8 = m.readByte (a + k) := by
  have := (m.readByte a).isLt; have := (m.readByte (a + 1)).isLt
  have := (m.readByte (a + 2)).isLt; have := (m.readByte (a + 3)).isLt
  rw [← BitVec.toNat_inj, toNat_extract, Memory.readWord, wordOfBytes]
  simp only [toNat_append_eq]
  interval_cases k
  · simp only [Nat.add_zero]; omega
  all_goals omega

/-- Byte `k` of a half-word read is the byte at the address `k` further on. -/
theorem extractLsb'_readHalf (m : Memory) (a : Nat) {k : Nat} (hk : k < 2) :
    (m.readHalf a).extractLsb' (8 * (1 - k)) 8 = m.readByte (a + k) := by
  have := (m.readByte a).isLt; have := (m.readByte (a + 1)).isLt
  rw [← BitVec.toNat_inj, toNat_extract, Memory.readHalf, halfOfBytes]
  simp only [toNat_append_eq]
  interval_cases k
  · simp only [Nat.add_zero]; omega
  all_goals omega

/-- A word is the join of its two half-words. -/
theorem readWord_eq_append_readHalf (m : Memory) (a : Nat) : m.readWord a = m.readHalf a ++ m.readHalf (a + 2) := by
  have hLow : m.readHalf (a + 2) = halfOfBytes (m.readByte (a + 2)) (m.readByte (a + 3)) := rfl
  rw [← BitVec.toNat_inj, hLow]
  simp only [Memory.readWord, Memory.readHalf, wordOfBytes, halfOfBytes, toNat_append_eq]
  omega

/-- Settles O11. -/
theorem wordHalfAndByteViewsAgree : Obligations.WordHalfAndByteViewsAgree := by
  intro m a
  refine ⟨(extractLsb'_readWord m a (k := 0) (by decide)).symm, (extractLsb'_readHalf m a (k := 0) (by decide)).symm,
    (extractLsb'_readWord m a (k := 3) (by decide)).symm, ?high, ?low⟩
  case high => rw [readWord_eq_append_readHalf, BitVec.extractLsb'_append_eq_left]
  case low => rw [readWord_eq_append_readHalf, BitVec.extractLsb'_append_eq_right]

/-! ### Effective addresses (R58) -/

@[simp] theorem toInt_immSigned (imm : Imm16) : (immSigned imm).toInt = imm.toInt :=
  BitVec.toInt_signExtend_of_le (by decide)

/-- A word sum with its operands read as unsigned and as signed. -/
theorem add_eq_ofInt (x y : Word) : x + y = BitVec.ofInt 32 (x.toNat + y.toInt) := by
  rw [BitVec.ofInt_add, BitVec.ofInt_natCast, BitVec.ofNat_toNat, BitVec.ofInt_toInt, BitVec.setWidth_eq]

/-- An effective address is the sum of the base, read as unsigned, and the displacement, modulo 2 ^ 32. -/
theorem toNat_effectiveAddress (s : State) (rs : RegIdx) (imm : Imm16) :
    ((effectiveAddress s rs imm).toNat : Int) = ((readReg s rs).toNat + imm.toInt) % 2 ^ 32 := by
  rw [effectiveAddress, add_eq_ofInt, toInt_immSigned, BitVec.toNat_ofInt]
  omega

/-- Settles O12: a displacement is at least -2 ^ 15, so the sum wraps to the top half of the address space, where R9
allows no memory. -/
theorem negativeAddressesAreOutOfBounds : Obligations.NegativeAddressesAreOutOfBounds := by
  intro s rs imm hWf hNeg
  obtain ⟨-, -, -, -, -, -, -, hEnd⟩ := s.cfg.wf_iff.mp hWf
  have hAddr := toNat_effectiveAddress s rs imm
  have hLeast : -2 ^ 15 ≤ imm.toInt := BitVec.le_toInt imm
  omega

/-! ### Observation (R109) -/

@[simp] theorem length_bytesFrom (m : Memory) (a k : Nat) : (bytesFrom m a k).length = k := by
  induction k generalizing a with
  | zero => rfl
  | succ k ih => rw [bytesFrom, List.length_cons, ih]

theorem getElem?_bytesFrom (m : Memory) (a : Nat) {i k : Nat} (h : i < k) :
    (bytesFrom m a k)[i]? = some (m.readByte (a + i)) := by
  induction k generalizing a i with
  | zero => exact absurd h (Nat.not_lt_zero i)
  | succ k ih =>
    rw [bytesFrom]
    cases i with
    | zero => rfl
    | succ i =>
      rw [List.getElem?_cons_succ, ih (a + 1) (Nat.lt_of_succ_lt_succ h), Nat.add_right_comm, Nat.add_assoc]

/-- Settles O50: both accessors make one comparison with END_MEM. -/
theorem observationsReadMemoryAsItIs : Obligations.ObservationsReadMemoryAsItIs := by
  intro s a k
  refine ⟨fun hIn => ⟨bytesFrom s.mem a k, ?range, length_bytesFrom s.mem a k,
      fun i hi => getElem?_bytesFrom s.mem a hi⟩,
    fun hPast => ?rangePast, fun hIn => ?view, fun hPast => ?viewPast⟩
  case range => rw [observeBytes, if_pos hIn]
  case rangePast => rw [observeBytes, if_neg (Nat.not_le.mpr hPast)]
  case view =>
    rw [observeWord, if_pos (by omega)]
    rfl
  case viewPast => rw [observeWord, if_neg (by omega)]

end Sys2Proof.Machine
end

section
/-! The register ALU, shift and immediate ALU instructions (41_alu_register.md, 42_alu_immediate.md): each commits one
register write, or takes the overflow fault of the signed forms. -/

namespace Sys2Proof.Machine

/-! ### What the commit of an effect leaves -/

/-- Every committed effect goes on at its target, or at `pc + 4` (R103, R104). -/
theorem commit_goesOnAt (e : Effect) (s : State) : GoesOnAt s (nextPc e.target s.pc) (commit e s) :=
  ⟨commit_pc e s, rfl, commit_fault e s, commit_cfg e s, commit_fresh e s⟩

/-- An effect without a memory write leaves every byte. -/
theorem commit_sameMemory {e : Effect} (h : e.memWrite = none) (s : State) : SameMemory s (commit e s) := by
  intro a
  rw [commit_mem, h, applyMemWrite]

/-- An effect without a register write leaves every register. -/
theorem commit_sameRegs {e : Effect} (h : e.regWrite = none) (s : State) : SameRegs s (commit e s) :=
  readReg_congr (by rw [commit_regs, h, applyRegWrite])

/-- An effect that writes a register changes that register alone. -/
theorem commit_regsWith {e : Effect} {i : RegIdx} {v : Word} (h : e.regWrite = some (i, v)) (s : State) :
    RegsWith s i v (commit e s) :=
  readReg_of_writeReg (by rw [commit_regs, h, applyRegWrite])

/-- An instruction that commits one register write completes: the destination takes the value, everything else stays,
and the engine goes on at `pc + 4`. -/
theorem completes_toReg {i : Instr} {s : State} {d : RegIdx} {v v' : Word}
    (hExec : exec i s = .next (commit (.toReg d v) s)) (hv : v = v') :
    ∃ t, exec i s = .next t ∧ RegsWith s d v' t ∧ SameMemory s t ∧ GoesOnAt s (s.pc + 4#32) t := by
  subst hv
  exact ⟨_, hExec, commit_regsWith rfl s, commit_sameMemory rfl s, commit_goesOnAt (.toReg d v) s⟩

/-- An instruction whose result is a fault ends `Faulted`, with its own word in the record and nothing else changed. -/
theorem faults_of_exec {i : Instr} {s : State} {f : FaultInfo} (hExec : exec i s = complete (encode i) (.error f) s) :
    ∃ t, exec i s = .next t ∧ FaultedAs s ⟨f.reason, s.pc, some (encode i), f.addr⟩ t :=
  ⟨_, hExec, takeFault_faultedAs f (some (encode i)) s⟩

/-! ### Addition, subtraction and the bitwise operations -/

section Register

variable (rs rt rd : RegIdx) (shamt : Shamt) (s : State)

theorem exec_addu : exec (.addu rs rt rd shamt) s = .next (commit (.toReg rd (readReg s rs + readReg s rt)) s) := rfl

theorem exec_subu : exec (.subu rs rt rd shamt) s = .next (commit (.toReg rd (readReg s rs - readReg s rt)) s) := rfl

theorem exec_and : exec (.and rs rt rd shamt) s = .next (commit (.toReg rd (readReg s rs &&& readReg s rt)) s) := rfl

theorem exec_or : exec (.or rs rt rd shamt) s = .next (commit (.toReg rd (readReg s rs ||| readReg s rt)) s) := rfl

theorem exec_nor :
    exec (.nor rs rt rd shamt) s = .next (commit (.toReg rd (~~~(readReg s rs ||| readReg s rt))) s) := rfl

theorem exec_sll :
    exec (.sll rs rt rd shamt) s = .next (commit (.toReg rt (readReg s rs <<< shamt.toNat)) s) := rfl

theorem exec_srl :
    exec (.srl rs rt rd shamt) s = .next (commit (.toReg rt (readReg s rs >>> shamt.toNat)) s) := rfl

end Register

theorem ofInt_sub (m n : Int) : BitVec.ofInt 32 (m - n) = BitVec.ofInt 32 m - BitVec.ofInt 32 n := by
  rw [Int.sub_eq_add_neg, BitVec.ofInt_add, BitVec.ofInt_neg, ← BitVec.sub_eq_add_neg]

/-- A word difference with its operands read as unsigned. -/
theorem sub_eq_ofInt (x y : Word) : x - y = BitVec.ofInt 32 (x.toNat - y.toNat) := by
  rw [ofInt_sub, BitVec.ofInt_natCast, BitVec.ofInt_natCast, BitVec.ofNat_toNat, BitVec.ofNat_toNat,
    BitVec.setWidth_eq, BitVec.setWidth_eq]

/-- Settles O13: the sum and the difference are those of the unsigned readings, modulo 2 ^ 32. -/
theorem wrappingAluInstructionsComplete : Obligations.WrappingAluInstructionsComplete := by
  intro s rs rt rd shamt
  exact ⟨completes_toReg (exec_addu rs rt rd shamt s) (BitVec.add_def ..),
    completes_toReg (exec_subu rs rt rd shamt s) (sub_eq_ofInt ..), completes_toReg (exec_and rs rt rd shamt s) rfl,
    completes_toReg (exec_or rs rt rd shamt s) rfl, completes_toReg (exec_nor rs rt rd shamt s) rfl⟩

/-! ### Shifts -/

theorem shiftLeft_eq_ofNat (x : Word) (n : Nat) : x <<< n = BitVec.ofNat 32 (x.toNat * 2 ^ n) := by
  rw [← BitVec.toNat_inj, BitVec.toNat_shiftLeft, BitVec.toNat_ofNat, Nat.shiftLeft_eq]

theorem ushiftRight_eq_ofNat (x : Word) (n : Nat) : x >>> n = BitVec.ofNat 32 (x.toNat / 2 ^ n) := by
  have hLt : x.toNat / 2 ^ n < 2 ^ 32 := Nat.lt_of_le_of_lt (Nat.div_le_self ..) x.isLt
  rw [← BitVec.toNat_inj, BitVec.toNat_ushiftRight, BitVec.toNat_ofNat, Nat.mod_eq_of_lt hLt, Nat.shiftRight_eq_div_pow]

/-- Settles O14: a shift with zero fill multiplies or divides the unsigned reading. -/
theorem shiftsComplete : Obligations.ShiftsComplete := by
  intro s rs rt rd shamt
  exact ⟨completes_toReg (exec_sll rs rt rd shamt s) (shiftLeft_eq_ofNat ..),
    completes_toReg (exec_srl rs rt rd shamt s) (ushiftRight_eq_ofNat ..)⟩

/-! ### Comparisons -/

theorem bool01_lessSigned (x y : Word) : bool01 (lessSigned x y) = if x.toInt < y.toInt then 1#32 else 0#32 := by
  simp only [bool01, lessSigned, decide_eq_true_eq]

theorem bool01_lessUnsigned (x y : Word) : bool01 (lessUnsigned x y) = if x.toNat < y.toNat then 1#32 else 0#32 := by
  simp only [bool01, lessUnsigned, decide_eq_true_eq]

@[simp] theorem toNat_immZero (imm : Imm16) : (immZero imm).toNat = imm.toNat :=
  BitVec.toNat_setWidth_of_le (by decide)

/-- Settles O15: the immediate of `slti` keeps its signed reading, that of `sltiu` its unsigned one. -/
theorem comparisonsComplete : Obligations.ComparisonsComplete := by
  intro s rs rt rd shamt imm
  refine ⟨completes_toReg (exec_slt rs rt rd shamt s) (bool01_lessSigned ..),
    completes_toReg (exec_sltu rs rt rd shamt s) (bool01_lessUnsigned ..),
    completes_toReg (exec_slti rs rt imm s) ?slti, completes_toReg (exec_sltiu rs rt imm s) ?sltiu⟩
  case slti => rw [bool01_lessSigned, toInt_immSigned]
  case sltiu => rw [bool01_lessUnsigned, toNat_immZero]

/-! ### The signed forms and their overflow (R116, R118, R127, R131) -/

theorem exec_add (rs rt rd : RegIdx) (shamt : Shamt) (s : State) :
    exec (.add rs rt rd shamt) s = complete (encode (.add rs rt rd shamt))
      ((signedAdd (readReg s rs) (readReg s rt)).map (.toReg rd)) s := rfl

theorem exec_sub (rs rt rd : RegIdx) (shamt : Shamt) (s : State) :
    exec (.sub rs rt rd shamt) s = complete (encode (.sub rs rt rd shamt))
      ((signedSub (readReg s rs) (readReg s rt)).map (.toReg rd)) s := rfl

theorem exec_addi (rs rt : RegIdx) (imm : Imm16) (s : State) :
    exec (.addi rs rt imm) s = complete (encode (.addi rs rt imm))
      ((signedAdd (readReg s rs) (immSigned imm)).map (.toReg rt)) s := rfl

theorem fitsSigned_eq_true {n : Int} (hLow : -2 ^ 31 ≤ n) (hHigh : n ≤ 2 ^ 31 - 1) : fitsSigned n = true := by
  simp only [fitsSigned, Bool.and_eq_true, decide_eq_true_eq]
  exact ⟨hLow, hHigh⟩

theorem fitsSigned_eq_false {n : Int} (h : n < -2 ^ 31 ∨ 2 ^ 31 - 1 < n) : fitsSigned n = false := by
  simp only [fitsSigned, Bool.and_eq_false_iff, decide_eq_false_iff_not, Int.not_le]
  exact h

/-- A signed form whose exact result fits writes that result. -/
theorem completes_of_signed {i : Instr} {s : State} {d : RegIdx} {v : Word} {n : Int} {r : Except FaultInfo Word}
    (hExec : exec i s = complete (encode i) (r.map (.toReg d)) s) (hResult : r = .ok v) (hv : v = BitVec.ofInt 32 n) :
    ∃ t, exec i s = .next t ∧ RegsWith s d (BitVec.ofInt 32 n) t ∧ SameMemory s t ∧ GoesOnAt s (s.pc + 4#32) t :=
  completes_toReg (by rw [hExec, hResult]; rfl) hv

/-- A signed form whose exact result does not fit faults. -/
theorem faults_of_signed {i : Instr} {s : State} {d : RegIdx} {f : FaultInfo} {r : Except FaultInfo Word}
    (hExec : exec i s = complete (encode i) (r.map (.toReg d)) s) (hResult : r = .error f) :
    ∃ t, exec i s = .next t ∧ FaultedAs s ⟨f.reason, s.pc, some (encode i), f.addr⟩ t :=
  faults_of_exec (by rw [hExec, hResult]; rfl)

theorem add_eq_ofInt_toInt (x y : Word) : x + y = BitVec.ofInt 32 (x.toInt + y.toInt) := by
  rw [BitVec.ofInt_add, BitVec.ofInt_toInt, BitVec.ofInt_toInt]

theorem sub_eq_ofInt_toInt (x y : Word) : x - y = BitVec.ofInt 32 (x.toInt - y.toInt) := by
  rw [ofInt_sub, BitVec.ofInt_toInt, BitVec.ofInt_toInt]

/-- Settles O17. -/
theorem signedArithmeticCompletesInRange : Obligations.SignedArithmeticCompletesInRange := by
  intro s rs rt rd shamt imm n hLow hHigh
  have hFits := fitsSigned_eq_true hLow hHigh
  refine ⟨fun hn => ?add, fun hn => ?sub, fun hn => ?addi⟩
  case add =>
    subst hn
    exact completes_of_signed (exec_add rs rt rd shamt s) (signedAdd_ok hFits) (add_eq_ofInt_toInt ..)
  case sub =>
    subst hn
    exact completes_of_signed (exec_sub rs rt rd shamt s) (signedSub_ok hFits) (sub_eq_ofInt_toInt ..)
  case addi =>
    rw [← toInt_immSigned] at hn
    subst hn
    exact completes_of_signed (exec_addi rs rt imm s) (signedAdd_ok hFits) (add_eq_ofInt_toInt ..)

/-- Settles O18. -/
theorem signedArithmeticFaultsOutOfRange : Obligations.SignedArithmeticFaultsOutOfRange := by
  intro s rs rt rd shamt imm n hOut
  have hFits := fitsSigned_eq_false hOut
  refine ⟨fun hn => ?add, fun hn => ?sub, fun hn => ?addi⟩
  case add =>
    subst hn
    exact faults_of_signed (exec_add rs rt rd shamt s) (signedAdd_overflow hFits)
  case sub =>
    subst hn
    exact faults_of_signed (exec_sub rs rt rd shamt s) (signedSub_overflow hFits)
  case addi =>
    rw [← toInt_immSigned] at hn
    subst hn
    exact faults_of_signed (exec_addi rs rt imm s) (signedAdd_overflow hFits)

/-! ### The immediate forms that never fault -/

section Immediate

variable (rs rt : RegIdx) (imm : Imm16) (s : State)

theorem exec_addiu : exec (.addiu rs rt imm) s = .next (commit (.toReg rt (readReg s rs + immSigned imm)) s) := rfl

theorem exec_andi : exec (.andi rs rt imm) s = .next (commit (.toReg rt (readReg s rs &&& immLogical imm)) s) := rfl

theorem exec_ori : exec (.ori rs rt imm) s = .next (commit (.toReg rt (readReg s rs ||| immLogical imm)) s) := rfl

theorem exec_lui : exec (.lui rs rt imm) s = .next (commit (.toReg rt (immUpper imm)) s) := rfl

end Immediate

theorem immLogical_eq_append (imm : Imm16) : immLogical imm = 0x0000#16 ++ imm := by
  rw [← BitVec.toNat_inj, immLogical, toNat_immZero, toNat_append_eq, BitVec.toNat_ofNat, Nat.zero_mod, Nat.zero_mul,
    Nat.zero_add]

theorem immUpper_eq_ofNat (imm : Imm16) : immUpper imm = BitVec.ofNat 32 (imm.toNat * 2 ^ 16) := by
  have := imm.isLt
  rw [← BitVec.toNat_inj, immUpper, toNat_append_eq, BitVec.toNat_ofNat, BitVec.toNat_ofNat]
  omega

/-- Settles O19. -/
theorem immediateAluInstructionsComplete : Obligations.ImmediateAluInstructionsComplete := by
  intro s rs rt imm
  refine ⟨completes_toReg (exec_addiu rs rt imm s) ?addiu, completes_toReg (exec_andi rs rt imm s) ?andi,
    completes_toReg (exec_ori rs rt imm s) ?ori, completes_toReg (exec_lui rs rt imm s) (immUpper_eq_ofNat imm)⟩
  case addiu => rw [add_eq_ofInt, toInt_immSigned]
  case andi => rw [immLogical_eq_append]
  case ori => rw [immLogical_eq_append]

end Sys2Proof.Machine
end

section
/-! Control transfer (43_control_transfer.md): where the jumps and branches go, and that only `jal` writes a
register. -/

namespace Sys2Proof.Machine

/-! ### What an effect that sets the pc leaves -/

/-- An instruction that commits no write goes on at its target and changes no register and no byte. -/
theorem completes_noWrite {i : Instr} {s : State} {e : Effect} {target : Word} (hExec : exec i s = .next (commit e s))
    (hReg : e.regWrite = none) (hMem : e.memWrite = none) (hTarget : nextPc e.target s.pc = target) :
    ∃ t, exec i s = .next t ∧ SameRegs s t ∧ SameMemory s t ∧ GoesOnAt s target t := by
  subst hTarget
  exact ⟨_, hExec, commit_sameRegs hReg s, commit_sameMemory hMem s, commit_goesOnAt e s⟩

/-! ### Jumps -/

theorem exec_jr (rs rt rd : RegIdx) (shamt : Shamt) (s : State) :
    exec (.jr rs rt rd shamt) s = .next (commit (.jump (readReg s rs)) s) := rfl

theorem exec_j (address : Target26) (s : State) :
    exec (.j address) s = .next (commit (.jump (jumpTarget s.pc address)) s) := rfl

theorem exec_jal (address : Target26) (s : State) :
    exec (.jal address) s = .next (commit (.link 31#5 (s.pc + 4#32) (jumpTarget s.pc address)) s) := rfl

/-- The target of a jump as R72 writes it: the top 4 bits of the pc, the field, two zeros. -/
theorem jumpTarget_eq_append (pc : Word) (address : Target26) :
    jumpTarget pc address = pc.extractLsb' 28 4 ++ address ++ 0b00#2 := by
  refine BitVec.eq_of_getLsbD_eq fun k hk => ?_
  simp only [jumpTarget, BitVec.getLsbD_or, BitVec.getLsbD_and, BitVec.getLsbD_shiftLeft, BitVec.getLsbD_setWidth,
    BitVec.getLsbD_append, BitVec.getLsbD_extractLsb']
  interval_cases k <;> simp

/-- Settles O20. -/
theorem jumpsComplete : Obligations.JumpsComplete := by
  intro s rs rt rd shamt address
  refine ⟨completes_noWrite (exec_jr rs rt rd shamt s) rfl rfl rfl,
    completes_noWrite (exec_j address s) rfl rfl (jumpTarget_eq_append s.pc address),
    _, exec_jal address s, commit_regsWith rfl s, commit_sameMemory rfl s, ?target⟩
  case target =>
    rw [← jumpTarget_eq_append]
    exact commit_goesOnAt (.link ..) s

/-! ### Branches -/

/-- The effect of a conditional branch: a jump if the condition holds, else the sequential advance. -/
def branchEffect (taken : Prop) [Decidable taken] (target : Word) : Effect :=
  if taken then .jump target else .empty

theorem exec_beq (rs rt : RegIdx) (imm : Imm16) (s : State) :
    exec (.beq rs rt imm) s =
      .next (commit (branchEffect (readReg s rs = readReg s rt) (branchTarget s.pc imm)) s) := rfl

theorem exec_bne (rs rt : RegIdx) (imm : Imm16) (s : State) :
    exec (.bne rs rt imm) s =
      .next (commit (branchEffect (readReg s rs ≠ readReg s rt) (branchTarget s.pc imm)) s) := by
  rw [branchEffect, ite_not]
  rfl

section Branch

variable (taken : Prop) [Decidable taken] (target pc : Word)

theorem branchEffect_regWrite : (branchEffect taken target).regWrite = none := by
  unfold branchEffect
  split <;> rfl

theorem branchEffect_memWrite : (branchEffect taken target).memWrite = none := by
  unfold branchEffect
  split <;> rfl

theorem nextPc_branchEffect :
    nextPc (branchEffect taken target).target pc = if taken then target else pc + 4#32 := by
  unfold branchEffect
  split <;> rfl

end Branch

/-- The target of a taken branch with immediate `k` is `4 + 4k` past the branch, modulo 2 ^ 32 (R71). -/
theorem branchTarget_eq_ofInt (pc : Word) (imm : Imm16) :
    branchTarget pc imm = BitVec.ofInt 32 (pc.toNat + (4 + 4 * imm.toInt)) := by
  have hShift : immSigned imm <<< 2 = BitVec.ofInt 32 (4 * imm.toInt) := by
    rw [BitVec.ofInt_mul, ← toInt_immSigned, BitVec.ofInt_toInt, ← BitVec.twoPow_mul_eq_shiftLeft]
    rfl
  rw [branchTarget, hShift, BitVec.ofInt_add, BitVec.ofInt_add, BitVec.ofInt_natCast, BitVec.ofNat_toNat,
    BitVec.setWidth_eq, BitVec.add_assoc]
  rfl

/-- Settles O21. -/
theorem branchesComplete : Obligations.BranchesComplete := by
  intro s rs rt imm
  rw [← branchTarget_eq_ofInt]
  exact ⟨completes_noWrite (exec_beq rs rt imm s) (branchEffect_regWrite ..) (branchEffect_memWrite ..)
      (nextPc_branchEffect ..),
    completes_noWrite (exec_bne rs rt imm s) (branchEffect_regWrite ..) (branchEffect_memWrite ..)
      (nextPc_branchEffect ..)⟩

end Sys2Proof.Machine
end

section
/-! Loads and stores (44_load_store.md): one checked access each, with one effect where the check passes; a value stored
is what the next load or fetch reads. -/

namespace Sys2Proof.Machine

/-! ### The outcomes of a checked access -/

section Access

variable {i : Instr} {s : State} {ea : Word} {n : Nat} {e : Effect}

theorem commits_of_access (hExec : exec i s = complete (encode i) ((checkAccess s.cfg ea n).map fun _ => e) s)
    (hAl : ea.toNat % n = 0) (hIn : ea.toNat + n - 1 ≤ s.cfg.endMem) : exec i s = .next (commit e s) := by
  rw [hExec, checkAccess_ok hAl hIn]
  rfl

theorem faults_of_misaligned_access
    (hExec : exec i s = complete (encode i) ((checkAccess s.cfg ea n).map fun _ => e) s) (hMis : ea.toNat % n ≠ 0) :
    ∃ t, exec i s = .next t ∧ FaultedAs s ⟨.alignmentError, s.pc, some (encode i), some ea⟩ t :=
  faults_of_exec (f := ⟨.alignmentError, some ea⟩) (by rw [hExec, checkAccess_misaligned hMis]; rfl)

theorem faults_of_access_past_end
    (hExec : exec i s = complete (encode i) ((checkAccess s.cfg ea n).map fun _ => e) s) (hAl : ea.toNat % n = 0)
    (hPast : s.cfg.endMem < ea.toNat + n - 1) :
    ∃ t, exec i s = .next t ∧ FaultedAs s ⟨.outOfBounds, s.pc, some (encode i), some ea⟩ t :=
  faults_of_exec (f := ⟨.outOfBounds, some ea⟩) (by rw [hExec, checkAccess_outOfBounds hAl hPast]; rfl)

end Access

/-! ### The six instructions -/

section Instructions

variable (s : State) (rs rt : RegIdx) (imm : Imm16)

theorem exec_lbu : exec (.lbu rs rt imm) s = complete (encode (.lbu rs rt imm))
    ((checkAccess s.cfg (effectiveAddress s rs imm) 1).map fun _ =>
      .toReg rt ((s.mem.readByte (effectiveAddress s rs imm).toNat).setWidth 32)) s :=
  congrArg (complete _ · s) (checkAccess_map_map ..)

theorem exec_lhu : exec (.lhu rs rt imm) s = complete (encode (.lhu rs rt imm))
    ((checkAccess s.cfg (effectiveAddress s rs imm) 2).map fun _ =>
      .toReg rt ((s.mem.readHalf (effectiveAddress s rs imm).toNat).setWidth 32)) s :=
  congrArg (complete _ · s) (checkAccess_map_map ..)

theorem exec_lw : exec (.lw rs rt imm) s = complete (encode (.lw rs rt imm))
    ((checkAccess s.cfg (effectiveAddress s rs imm) 4).map fun _ =>
      .toReg rt (s.mem.readWord (effectiveAddress s rs imm).toNat)) s :=
  congrArg (complete _ · s) (checkAccess_map_map ..)

theorem exec_sb : exec (.sb rs rt imm) s = complete (encode (.sb rs rt imm))
    ((checkAccess s.cfg (effectiveAddress s rs imm) 1).map fun _ =>
      .toMem (.byte (effectiveAddress s rs imm) ((readReg s rt).setWidth 8))) s := rfl

theorem exec_sh : exec (.sh rs rt imm) s = complete (encode (.sh rs rt imm))
    ((checkAccess s.cfg (effectiveAddress s rs imm) 2).map fun _ =>
      .toMem (.half (effectiveAddress s rs imm) ((readReg s rt).setWidth 16))) s := rfl

theorem exec_sw : exec (.sw rs rt imm) s = complete (encode (.sw rs rt imm))
    ((checkAccess s.cfg (effectiveAddress s rs imm) 4).map fun _ =>
      .toMem (.word (effectiveAddress s rs imm) (readReg s rt))) s := rfl

end Instructions

/-! ### Where they fault -/

/-- Settles O24: alignment is the first of the two checks. -/
theorem misalignedAccessesFault : Obligations.MisalignedAccessesFault := by
  rintro s rs rt imm _ rfl
  exact ⟨fun hMis => ⟨faults_of_misaligned_access (exec_lhu s rs rt imm) hMis,
      faults_of_misaligned_access (exec_sh s rs rt imm) hMis⟩,
    fun hMis => ⟨faults_of_misaligned_access (exec_lw s rs rt imm) hMis,
      faults_of_misaligned_access (exec_sw s rs rt imm) hMis⟩⟩

/-- Settles O25. -/
theorem accessesPastTheEndFault : Obligations.AccessesPastTheEndFault := by
  rintro s rs rt imm _ rfl
  refine ⟨fun hPast => ⟨?lbu, ?sb⟩, fun hAl hPast => ⟨?lhu, ?sh⟩, fun hAl hPast => ⟨?lw, ?sw⟩⟩
  case lbu => exact faults_of_access_past_end (exec_lbu s rs rt imm) (Nat.mod_one _) hPast
  case sb => exact faults_of_access_past_end (exec_sb s rs rt imm) (Nat.mod_one _) hPast
  case lhu => exact faults_of_access_past_end (exec_lhu s rs rt imm) hAl hPast
  case sh => exact faults_of_access_past_end (exec_sh s rs rt imm) hAl hPast
  case lw => exact faults_of_access_past_end (exec_lw s rs rt imm) hAl hPast
  case sw => exact faults_of_access_past_end (exec_sw s rs rt imm) hAl hPast

/-! ### Where they complete -/

/-- Settles O22. -/
theorem loadsComplete : Obligations.LoadsComplete := by
  rintro s rs rt imm _ rfl
  refine ⟨fun hIn => ?lbu, fun hAl hIn => ?lhu, fun hAl hIn => ?lw⟩
  case lbu => exact completes_toReg (commits_of_access (exec_lbu s rs rt imm) (Nat.mod_one _) hIn) rfl
  case lhu => exact completes_toReg (commits_of_access (exec_lhu s rs rt imm) hAl hIn) rfl
  case lw => exact completes_toReg (commits_of_access (exec_lw s rs rt imm) hAl hIn) rfl

/-- The three stores as one: a checked access of `n` bytes that writes the low `n` bytes of `x[rt]` (R154 to R156). -/
theorem exec_store {i : Instr} {n : Nat} {rs rt : RegIdx} {imm : Imm16}
    (hi : (i, n) ∈ [(.sb rs rt imm, 1), (.sh rs rt imm, 2), (.sw rs rt imm, 4)]) (s : State) :
    ∃ st : Store, st.addr = effectiveAddress s rs imm ∧ st.bytes = lowBytes (readReg s rt) n ∧
      exec i s =
        complete (encode i) ((checkAccess s.cfg (effectiveAddress s rs imm) n).map fun _ => .toMem st) s := by
  simp only [List.mem_cons, List.not_mem_nil, or_false, Prod.mk.injEq] at hi
  rcases hi with ⟨rfl, rfl⟩ | ⟨rfl, rfl⟩ | ⟨rfl, rfl⟩
  · exact ⟨_, rfl, bytes_byte .., exec_sb s rs rt imm⟩
  · exact ⟨_, rfl, bytes_half .., exec_sh s rs rt imm⟩
  · exact ⟨_, rfl, bytes_word .., exec_sw s rs rt imm⟩

/-- A store that passes its checks writes its `n` bytes and changes nothing else but the pc. -/
theorem store_completes {i : Instr} {n : Nat} {s : State} {rs rt : RegIdx} {imm : Imm16}
    (hi : (i, n) ∈ [(.sb rs rt imm, 1), (.sh rs rt imm, 2), (.sw rs rt imm, 4)])
    (hAl : (effectiveAddress s rs imm).toNat % n = 0)
    (hIn : (effectiveAddress s rs imm).toNat + n - 1 ≤ s.cfg.endMem) :
    ∃ t, exec i s = .next t ∧
      (∀ k < n, t.mem.readByte ((effectiveAddress s rs imm).toNat + k) =
        (readReg s rt).extractLsb' (8 * (n - k - 1)) 8) ∧
      SameMemoryOutside s (effectiveAddress s rs imm).toNat n t ∧ SameRegs s t ∧ GoesOnAt s (s.pc + 4#32) t := by
  obtain ⟨st, hAddr, hBytes, hExec⟩ := exec_store hi s
  have hLength : st.bytes.length = n := by rw [hBytes, length_lowBytes]
  refine ⟨_, commits_of_access hExec hAl hIn, fun k hk => ?bytes, ?frame, commit_sameRegs rfl s,
    commit_goesOnAt (.toMem st) s⟩
  case bytes => exact hAddr ▸ readByte_commit_toMem hBytes s hk
  case frame => exact hAddr ▸ hLength ▸ commit_toMem_sameMemoryOutside st s

/-- Settles O23. -/
theorem storesComplete : Obligations.StoresComplete := by
  rintro s rs rt imm _ rfl
  refine ⟨fun hIn => ?sb, fun hAl hIn => ?sh, fun hAl hIn => ?sw⟩
  case sb =>
    obtain ⟨t, hExec, hBytes, hFrame, hRest⟩ :=
      store_completes (i := .sb rs rt imm) (rt := rt) (by simp) (Nat.mod_one _) hIn
    exact ⟨t, hExec, hBytes 0 (by decide), hFrame, hRest⟩
  case sh =>
    obtain ⟨t, hExec, hBytes, hFrame, hRest⟩ := store_completes (i := .sh rs rt imm) (rt := rt) (by simp) hAl hIn
    exact ⟨t, hExec, hBytes 0 (by decide), hBytes 1 (by decide), hFrame, hRest⟩
  case sw =>
    obtain ⟨t, hExec, hBytes, hFrame, hRest⟩ := store_completes (i := .sw rs rt imm) (rt := rt) (by simp) hAl hIn
    exact ⟨t, hExec, hBytes 0 (by decide), hBytes 1 (by decide), hBytes 2 (by decide), hBytes 3 (by decide), hFrame,
      hRest⟩

/-! ### What is read after a store -/

theorem effectiveAddress_congr {s t : State} (h : SameRegs s t) (rs : RegIdx) (imm : Imm16) :
    effectiveAddress t rs imm = effectiveAddress s rs imm := by
  rw [effectiveAddress, effectiveAddress, h rs]

theorem readReg_of_regsWith {s t : State} {i : RegIdx} {v : Word} (h : RegsWith s i v t) (hi : i ≠ 0#5) :
    readReg t i = v := by
  rw [h i, if_neg hi, if_pos rfl]

theorem extract_eq_setWidth (v : Word) : v.extractLsb' 0 8 = v.setWidth 8 :=
  (BitVec.setWidth_eq_extractLsb' (by decide)).symm

/-- The low half-word is the join of the two low bytes. -/
theorem append_extract_eq_setWidth (v : Word) : v.extractLsb' 8 8 ++ v.extractLsb' 0 8 = v.setWidth 16 := by
  have hBytes := halfOfBytes_bytes (v.setWidth 16)
  rwa [BitVec.extractLsb'_setWidth_of_le (by decide), BitVec.extractLsb'_setWidth_of_le (by decide)] at hBytes

/-- Settles O27: the store leaves the registers and so the effective address, at which the load reads the bytes
stored. -/
theorem storedValuesLoadBack : Obligations.StoredValuesLoadBack := by
  rintro s rs rt rt' imm _ rfl hDest
  obtain ⟨storeByte, storeHalf, storeWord⟩ := storesComplete s rs rt imm _ rfl
  refine ⟨fun hIn => ?byte, fun hAl hIn => ?half, fun hAl hIn => ?word⟩
  case byte =>
    obtain ⟨t, hStore, hByte, -, hRegs, -, -, -, hCfg, -⟩ := storeByte hIn
    have hAddr := effectiveAddress_congr hRegs rs imm
    obtain ⟨loadByte, -, -⟩ := loadsComplete t rs rt' imm _ rfl
    obtain ⟨u, hLoad, hRead, -⟩ := loadByte (by rwa [hAddr, hCfg])
    refine ⟨t, u, hStore, hLoad, ?_⟩
    rw [readReg_of_regsWith hRead hDest, hAddr, hByte, extract_eq_setWidth]
  case half =>
    obtain ⟨t, hStore, hByte0, hByte1, -, hRegs, -, -, -, hCfg, -⟩ := storeHalf hAl hIn
    have hAddr := effectiveAddress_congr hRegs rs imm
    obtain ⟨-, loadHalf, -⟩ := loadsComplete t rs rt' imm _ rfl
    obtain ⟨u, hLoad, hRead, -⟩ := loadHalf (by rwa [hAddr]) (by rwa [hAddr, hCfg])
    refine ⟨t, u, hStore, hLoad, ?_⟩
    rw [readReg_of_regsWith hRead hDest, hAddr, hByte0, hByte1, append_extract_eq_setWidth]
  case word =>
    obtain ⟨t, hStore, hByte0, hByte1, hByte2, hByte3, -, hRegs, -, -, -, hCfg, -⟩ := storeWord hAl hIn
    have hAddr := effectiveAddress_congr hRegs rs imm
    obtain ⟨-, -, loadWord⟩ := loadsComplete t rs rt' imm _ rfl
    obtain ⟨u, hLoad, hRead, -⟩ := loadWord (by rwa [hAddr]) (by rwa [hAddr, hCfg])
    refine ⟨t, u, hStore, hLoad, ?_⟩
    rw [readReg_of_regsWith hRead hDest, hAddr, hByte0, hByte1, hByte2, hByte3]
    exact wordOfBytes_bytes (readReg s rt)

/-- Settles O28: a fetch reads the memory that the store left, byte by byte. -/
theorem storesAreSeenByTheNextFetch : Obligations.StoresAreSeenByTheNextFetch := by
  rintro i n s rs rt imm _ hi rfl hAl hIn
  obtain ⟨t, hExec, hBytes, hFrame, -⟩ := store_completes hi hAl hIn
  refine ⟨t, hExec, fun u hMem _ hPcAl hPcIn => ⟨_, fetch_ok hPcAl hPcIn, fun k hk => ?_⟩⟩
  rw [extractLsb'_readWord _ _ hk, hMem]
  split
  case isTrue hInside =>
    obtain ⟨hFrom, hTo⟩ := hInside
    obtain ⟨j, hj⟩ := Nat.exists_eq_add_of_le hFrom
    rw [hj, hBytes j (by omega), Nat.add_sub_cancel_left, Nat.sub_right_comm]
  case isFalse hOutside => exact hFrame _ (by omega)

end Sys2Proof.Machine
end

section
/-! What every instruction can do (00_scope.md R16): the parts of an effect that its operation admits, and the faults
that it may raise (60_exceptions.md R166). The frames of all instructions follow from these. -/

namespace Sys2Proof.Machine

/-! ### The effect of an instruction -/

/-- A register write goes to the destination, a memory write belongs to a store and lies within memory, a pc target
belongs to a control transfer and is aligned unless it is `jr`'s. -/
structure EffectOf (i : Instr) (s : State) (e : Effect) : Prop where
  regWrite_destination : ∀ r v, e.regWrite = some (r, v) → destination i = some r
  memWrite_store : ∀ st, e.memWrite = some st → storesMemory i.op = true
  memWrite_bounded : ∀ st, e.memWrite = some st → st.addr.toNat + st.bytes.length ≤ s.cfg.endMem + 1
  target_transfer : ∀ t, e.target = some t → i.op ∈ [.jr, .j, .jal, .beq, .bne]
  target_aligned : ∀ t, e.target = some t → i.op ≠ .jr → s.pc.toNat % 4 = 0 → t.toNat % 4 = 0

theorem effectOf_toReg {i : Instr} {d : RegIdx} (h : destination i = some d) (s : State) (v : Word) :
    EffectOf i s (.toReg d v) where
  regWrite_destination := by rintro _ _ ⟨⟩; exact h
  memWrite_store := nofun
  memWrite_bounded := nofun
  target_transfer := nofun
  target_aligned := nofun

theorem effectOf_toMem {i : Instr} {s : State} {st : Store} (h : storesMemory i.op = true)
    (hIn : st.addr.toNat + st.bytes.length ≤ s.cfg.endMem + 1) : EffectOf i s (.toMem st) where
  regWrite_destination := nofun
  memWrite_store := fun _ _ => h
  memWrite_bounded := by rintro _ ⟨⟩; exact hIn
  target_transfer := nofun
  target_aligned := nofun

/-- An effect without a memory write whose target, if it has one, is that of a control transfer. -/
theorem effectOf_transfer {i : Instr} {s : State} {e : Effect} (hMem : e.memWrite = none)
    (hReg : ∀ r v, e.regWrite = some (r, v) → destination i = some r) (h : i.op ∈ [.jr, .j, .jal, .beq, .bne])
    (hAl : ∀ t, e.target = some t → i.op ≠ .jr → s.pc.toNat % 4 = 0 → t.toNat % 4 = 0) : EffectOf i s e where
  regWrite_destination := hReg
  memWrite_store := by simp [hMem]
  memWrite_bounded := by simp [hMem]
  target_transfer := fun _ _ => h
  target_aligned := hAl

theorem toNat_jumpTarget_mod_four (pc : Word) (address : Target26) : (jumpTarget pc address).toNat % 4 = 0 := by
  rw [jumpTarget_eq_append, toNat_append_eq, BitVec.toNat_ofNat]
  omega

theorem toNat_branchTarget_mod_four {pc : Word} (h : pc.toNat % 4 = 0) (imm : Imm16) :
    (branchTarget pc imm).toNat % 4 = 0 := by
  rw [branchTarget_eq_ofInt, BitVec.toNat_ofInt]
  omega

theorem toNat_add_four_mod_four {pc : Word} (h : pc.toNat % 4 = 0) : (pc + 4#32).toNat % 4 = 0 := by
  rw [BitVec.toNat_add, BitVec.toNat_ofNat]
  omega

theorem effectOf_branch {i : Instr} (h : i.op ∈ [.jr, .j, .jal, .beq, .bne]) (s : State) (taken : Prop)
    [Decidable taken] (imm : Imm16) : EffectOf i s (branchEffect taken (branchTarget s.pc imm)) := by
  refine effectOf_transfer (branchEffect_memWrite ..) (by simp [branchEffect_regWrite]) h fun t hTarget _ hAl => ?_
  unfold branchEffect at hTarget
  split at hTarget
  · cases hTarget
    exact toNat_branchTarget_mod_four hAl imm
  · cases hTarget

/-! ### The faults of an instruction -/

/-- A fault that the operation may raise, with the address that its reason asks for. -/
def FaultOf (i : Instr) (s : State) (f : FaultInfo) : Prop :=
  i.op ∈ raisers f.reason ∧
    match f.reason with
    | .alignmentError => ∃ a, f.addr = some a ∧ a.toNat % 4 ≠ 0
    | .outOfBounds => ∃ a n, f.addr = some a ∧ n ∈ [1, 2, 4] ∧ a.toNat % n = 0 ∧ s.cfg.endMem < a.toNat + n - 1
    | .arithmeticOverflow => f.addr = none
    | .illegalInstruction => False

/-! ### The cases of an instruction other than the sentinel -/

/-- The instruction commits an effect that it admits, or takes a fault that it may raise. -/
def EndsAsAdmitted (i : Instr) (s : State) : Prop :=
  (∃ e, exec i s = .next (commit e s) ∧ EffectOf i s e) ∨
    ∃ f, exec i s = .next (takeFault f (some (encode i)) s) ∧ FaultOf i s f

theorem endsAsAdmitted_toReg {i : Instr} {s : State} {d : RegIdx} {v : Word} (hDest : destination i = some d)
    (hExec : exec i s = .next (commit (.toReg d v) s)) : EndsAsAdmitted i s :=
  .inl ⟨_, hExec, effectOf_toReg hDest s v⟩

theorem endsAsAdmitted_signed {i : Instr} {s : State} {d : RegIdx} {r : Except FaultInfo Word} (o : Op)
    (hOp : i.op = o) (hRaises : o ∈ raisers .arithmeticOverflow) (hDest : destination i = some d)
    (hExec : exec i s = complete (encode i) (r.map (.toReg d)) s)
    (hResult : ∀ f, r = .error f → f = ⟨.arithmeticOverflow, none⟩) : EndsAsAdmitted i s := by
  cases r with
  | ok v => exact endsAsAdmitted_toReg hDest hExec
  | error f =>
    obtain rfl := hResult f rfl
    exact .inr ⟨_, hExec, hOp ▸ hRaises, rfl⟩

theorem signedAdd_error {x y : Word} {f : FaultInfo} (h : signedAdd x y = .error f) :
    f = ⟨.arithmeticOverflow, none⟩ := by
  unfold signedAdd at h
  split at h <;> cases h
  rfl

theorem signedSub_error {x y : Word} {f : FaultInfo} (h : signedSub x y = .error f) :
    f = ⟨.arithmeticOverflow, none⟩ := by
  unfold signedSub at h
  split at h <;> cases h
  rfl

/-- A load or store of `n` bytes: an access of one byte passes its alignment check. -/
theorem endsAsAdmitted_access {i : Instr} {s : State} {ea : Word} {e : Effect} (n : Nat) (o : Op) (hOp : i.op = o)
    (hTable : n ∈ [1, 2, 4] ∧ (n = 1 ∨ o ∈ raisers .alignmentError) ∧ o ∈ raisers .outOfBounds)
    (hExec : exec i s = complete (encode i) ((checkAccess s.cfg ea n).map fun _ => e) s)
    (hEffect : ea.toNat + n - 1 ≤ s.cfg.endMem → EffectOf i s e) : EndsAsAdmitted i s := by
  subst hOp
  obtain ⟨hn, hAlign, hBounds⟩ := hTable
  rcases checkAccess_cases s.cfg ea n with ⟨hMis, hCheck⟩ | ⟨hAl, hPast, hCheck⟩ | ⟨-, hIn, hCheck⟩ <;>
    rw [hCheck] at hExec
  · have hRaises := hAlign.resolve_left fun h => hMis (h ▸ Nat.mod_one _)
    have hMisWord : ea.toNat % 4 ≠ 0 := by
      simp only [List.mem_cons, List.not_mem_nil, or_false] at hn
      rcases hn with rfl | rfl | rfl <;> omega
    exact .inr ⟨_, hExec, hRaises, ea, rfl, hMisWord⟩
  · exact .inr ⟨_, hExec, hBounds, ea, n, rfl, hn, hAl, hPast⟩
  · exact .inl ⟨e, hExec, hEffect hIn⟩

/-- Every instruction but the sentinel commits an effect that its operation admits, or takes a fault that its operation
may raise. -/
theorem exec_endsAsAdmitted {i : Instr} (hi : i ≠ .halt) (s : State) : EndsAsAdmitted i s := by
  cases i
  case halt => exact absurd rfl hi
  case add => exact endsAsAdmitted_signed .add rfl (by decide) rfl (exec_add ..) fun _ => signedAdd_error
  case sub => exact endsAsAdmitted_signed .sub rfl (by decide) rfl (exec_sub ..) fun _ => signedSub_error
  case addi => exact endsAsAdmitted_signed .addi rfl (by decide) rfl (exec_addi ..) fun _ => signedAdd_error
  case jr =>
    exact .inl ⟨_, exec_jr .., effectOf_transfer rfl nofun (by simp [Instr.op]) fun _ _ hOp => absurd rfl hOp⟩
  case j =>
    refine .inl ⟨_, exec_j .., effectOf_transfer rfl nofun (by simp [Instr.op]) ?_⟩
    rintro _ ⟨⟩ - -
    exact toNat_jumpTarget_mod_four ..
  case jal =>
    refine .inl ⟨_, exec_jal .., effectOf_transfer rfl (by rintro _ _ ⟨⟩; rfl) (by simp [Instr.op]) ?_⟩
    rintro _ ⟨⟩ - -
    exact toNat_jumpTarget_mod_four ..
  case beq => exact .inl ⟨_, exec_beq .., effectOf_branch (by simp [Instr.op]) ..⟩
  case bne => exact .inl ⟨_, exec_bne .., effectOf_branch (by simp [Instr.op]) ..⟩
  case lbu => exact endsAsAdmitted_access 1 .lbu rfl (by decide) (exec_lbu ..) fun _ => effectOf_toReg rfl ..
  case lhu => exact endsAsAdmitted_access 2 .lhu rfl (by decide) (exec_lhu ..) fun _ => effectOf_toReg rfl ..
  case lw => exact endsAsAdmitted_access 4 .lw rfl (by decide) (exec_lw ..) fun _ => effectOf_toReg rfl ..
  case sb =>
    exact endsAsAdmitted_access 1 .sb rfl (by decide) (exec_sb ..) fun hIn =>
      effectOf_toMem rfl (Nat.le_add_of_sub_le hIn)
  case sh =>
    exact endsAsAdmitted_access 2 .sh rfl (by decide) (exec_sh ..) fun hIn =>
      effectOf_toMem rfl (Nat.le_add_of_sub_le hIn)
  case sw =>
    exact endsAsAdmitted_access 4 .sw rfl (by decide) (exec_sw ..) fun hIn =>
      effectOf_toMem rfl (Nat.le_add_of_sub_le hIn)
  all_goals exact endsAsAdmitted_toReg rfl rfl

/-- An instruction that answers a next state: the sentinel's halt, an effect that it admits, or a fault that it may
raise. -/
theorem exec_next {i : Instr} {s t : State} (h : exec i s = .next t) :
    (i = .halt ∧ t = haltAtSentinel s) ∨ (∃ e, t = commit e s ∧ EffectOf i s e) ∨
      ∃ f, t = takeFault f (some (encode i)) s ∧ FaultOf i s f := by
  by_cases hi : i = .halt
  · subst hi
    exact .inl ⟨rfl, (Host.Outcome.next.inj h).symm⟩
  · rcases exec_endsAsAdmitted hi s with ⟨e, hExec, he⟩ | ⟨f, hExec, hf⟩ <;> rw [hExec] at h
    · exact .inr (.inl ⟨e, (Host.Outcome.next.inj h).symm, he⟩)
    · exact .inr (.inr ⟨f, (Host.Outcome.next.inj h).symm, hf⟩)

/-! ### The frames of all instructions -/

/-- Settles O35: the effect of any other instruction has no memory write. -/
theorem onlyStoresChangeMemory : Obligations.OnlyStoresChangeMemory := by
  intro i s t hNoStore hExec
  rcases exec_next hExec with ⟨-, rfl⟩ | ⟨e, rfl, he⟩ | ⟨f, rfl, -⟩
  · exact haltAtSentinel_mem s
  · rw [commit_mem]
    cases hMem : e.memWrite with
    | none => rfl
    | some st => exact absurd (he.memWrite_store st hMem) (by rw [hNoStore]; decide)
  · exact takeFault_mem ..

/-- Settles O36: the register write of an effect goes to the destination. -/
theorem onlyTheDestinationRegisterChanges : Obligations.OnlyTheDestinationRegisterChanges := by
  intro i s t r hExec hr
  rcases exec_next hExec with ⟨-, rfl⟩ | ⟨e, rfl, he⟩ | ⟨f, rfl, -⟩
  · exact readReg_congr (haltAtSentinel_regs s) r
  · cases hReg : e.regWrite with
    | none => exact commit_sameRegs hReg s r
    | some write =>
      obtain ⟨d, v⟩ := write
      have hOther : r ≠ d := fun hEq => hr (hEq ▸ he.regWrite_destination d v hReg)
      rw [commit_regsWith hReg s r, if_neg hOther]
      split
      case isTrue hZero => rw [hZero, readReg_zero]
      case isFalse => rfl
  · exact readReg_congr (takeFault_regs ..) r

/-- Settles O37: an effect without a target advances the pc, and only the five transfers have one. -/
theorem onlyControlTransfersSetThePc : Obligations.OnlyControlTransfersSetThePc := by
  intro i s t hOp _ hExec hNoFault
  rcases exec_next hExec with ⟨rfl, -⟩ | ⟨e, rfl, he⟩ | ⟨f, rfl, -⟩
  · exact absurd (by decide) hOp
  · rw [commit_pc]
    cases hTarget : e.target with
    | none => rfl
    | some target =>
      have hTransfer := he.target_transfer target hTarget
      simp only [List.mem_cons, List.not_mem_nil, or_false] at hOp hTransfer
      tauto
  · exact absurd (takeFault_status ..) hNoFault

/-- Settles O38: `pc + 4` and the target of every transfer but `jr` are multiples of 4. -/
theorem onlyJrMakesAMisalignedPc : Obligations.OnlyJrMakesAMisalignedPc := by
  intro i s t hAl hOp hExec
  rcases exec_next hExec with ⟨-, rfl⟩ | ⟨e, rfl, he⟩ | ⟨f, rfl, -⟩
  · exact hAl
  · rw [commit_pc]
    cases hTarget : e.target with
    | none => exact toNat_add_four_mod_four hAl
    | some target => exact he.target_aligned target hTarget hOp hAl
  · exact hAl

/-! ### Independence of memory -/

/-- An instruction with one and the same result over two memories does the same over both to registers, pc, status and
record. -/
theorem exec_withMem_of_result {i : Instr} {s : State} {m : Memory} {r : Result}
    (hExec : exec i s = complete (encode i) r s)
    (hExecMem : exec i { s with mem := m } = complete (encode i) r { s with mem := m }) :
    ∃ t u, exec i s = .next t ∧ exec i { s with mem := m } = .next u ∧ u.regs = t.regs ∧ u.pc = t.pc ∧
      u.status = t.status ∧ u.fault = t.fault := by
  cases r with
  | error f => exact ⟨_, _, hExec, hExecMem, rfl, rfl, rfl, rfl⟩
  | ok e => exact ⟨_, _, hExec, hExecMem, rfl, rfl, rfl, rfl⟩

/-- Settles O39: the signed forms and the stores have one result over both memories, and every other instruction commits
one effect or halts. -/
theorem instructionsButLoadsDoNotReadMemory : Obligations.InstructionsButLoadsDoNotReadMemory := by
  intro i s m hOp
  cases i
  case lbu | lhu | lw => simp [Instr.op] at hOp
  case add => exact exec_withMem_of_result (exec_add ..) rfl
  case sub => exact exec_withMem_of_result (exec_sub ..) rfl
  case addi => exact exec_withMem_of_result (exec_addi ..) rfl
  case sb => exact exec_withMem_of_result (exec_sb ..) rfl
  case sh => exact exec_withMem_of_result (exec_sh ..) rfl
  case sw => exact exec_withMem_of_result (exec_sw ..) rfl
  all_goals exact ⟨_, _, rfl, rfl, rfl, rfl, rfl, rfl⟩

end Sys2Proof.Machine
end

section
/-! The step (40_fetch_loop.md R95 to R104): what it runs, that it always answers a next state within the constraints,
what it leaves, and the step over a zero word. -/

namespace Sys2Proof.Machine

/-! ### The halt sentinel, and the decoded instruction -/

theorem exec_halt (s : State) : exec .halt s = .next (haltAtSentinel s) := rfl

/-- Settles O29. -/
theorem haltStopsWithThePcKept : Obligations.HaltStopsWithThePcKept := fun s =>
  ⟨_, exec_halt s, haltAtSentinel_status s, haltAtSentinel_regs s, haltAtSentinel_mem s, haltAtSentinel_pc s,
    haltAtSentinel_fault s, haltAtSentinel_cfg s⟩

theorem cycle_of_decode_ok {s : State} {w : Word} {i : Instr} (hFetch : fetch s = .ok w) (hDecode : decode w = .ok i) :
    cycle s = exec i s := by
  rw [cycle, hFetch]
  change runWord w s = _
  rw [runWord, hDecode]

theorem cycle_of_decode_error {s : State} {w : Word} {e : DecodeError} (hFetch : fetch s = .ok w)
    (hDecode : decode w = .error e) : cycle s = unmappedWord w s := by
  rw [cycle, hFetch]
  change runWord w s = _
  rw [runWord, hDecode]

/-- Settles O30: the fetched word is the join of the four bytes. -/
theorem stepRunsTheDecodedInstruction : Obligations.StepRunsTheDecodedInstruction := by
  intro s i hWf hRun hAl hIn hDecode
  rw [step_running hWf hRun, cycle_of_decode_ok (fetch_ok hAl hIn) hDecode]

/-- Settles O32. -/
theorem unmappedWordsFollowThePolicy : Obligations.UnmappedWordsFollowThePolicy := by
  intro s w e hWf hRun hFetch hDecode
  have hStep : step s = unmappedWord w s := by rw [step_running hWf hRun, cycle_of_decode_error hFetch hDecode]
  refine ⟨fun hIllegal => ⟨_, ?illegal, takeFault_faultedAs ⟨.illegalInstruction, none⟩ (some w) s⟩,
    fun hNop => ⟨_, ?nop, commit_sameRegs rfl s, commit_sameMemory rfl s, commit_goesOnAt .empty s⟩⟩
  case illegal => rw [hStep, unmappedWord, hIllegal, complete_error]
  case nop => rw [hStep, unmappedWord, hNop, complete_ok]

/-! ### Every step -/

theorem step_terminal {s : State} (hWf : s.cfg.wf = true) (hEnd : s.status ≠ .running) : step s = .next s := by
  rw [step, loopStep, if_pos hWf]
  cases hStatus : s.status with
  | running => exact absurd hStatus hEnd
  | halted => rfl
  | faulted => rfl

/-- Settles O33. -/
theorem terminalStepsChangeNothing : Obligations.TerminalStepsChangeNothing := by
  intro s hWf hEnd
  have hStep := step_terminal hWf hEnd
  exact ⟨hStep, by rw [hostStep, hStep]⟩

theorem exec_answers_next (i : Instr) (s : State) : ∃ t, exec i s = .next t := by
  rcases exec_cases i s with ⟨-, h⟩ | ⟨-, f, h⟩ | ⟨-, e, h⟩ <;> exact ⟨_, h⟩

theorem cycle_answers_next (s : State) : ∃ t, cycle s = .next t := by
  rcases cycle_cases s with ⟨f, -, h⟩ | ⟨w, i, -, -, h⟩ | ⟨w, e, -, -, h⟩ <;> rw [h]
  · exact ⟨_, rfl⟩
  · exact exec_answers_next i s
  · rcases unmappedWord_cases w s with ⟨-, hNext⟩ | ⟨-, hNext⟩ <;> exact ⟨_, hNext⟩

/-- Settles O40. -/
theorem everyStepAnswersANextState : Obligations.EveryStepAnswersANextState := by
  intro s hWf
  by_cases hRun : s.status = .running
  · rw [step_running hWf hRun]
    exact cycle_answers_next s
  · exact ⟨s, step_terminal hWf hRun⟩

/-- Settles O41: the three ends of a pass of the loop keep the configuration. -/
theorem noStepChangesTheConfiguration : Obligations.NoStepChangesTheConfiguration := by
  intro s t hStep
  obtain ⟨-, ⟨-, rfl⟩ | ⟨-, hCycle⟩⟩ := step_cases hStep
  · rfl
  · rcases cycle_next hCycle with ⟨f, w, rfl⟩ | ⟨e, rfl⟩ | rfl <;> rfl

/-- Settles O34: of the three ends of a pass of the loop only a fault taken leaves the engine `Faulted`. -/
theorem faultsArePrecise : Obligations.FaultsArePrecise := by
  intro s t hRun hStep hFaulted
  obtain ⟨-, ⟨hEnd, -⟩ | ⟨-, hCycle⟩⟩ := step_cases hStep
  · exact absurd hRun hEnd
  · rcases cycle_next hCycle with ⟨f, w, rfl⟩ | ⟨e, rfl⟩ | rfl
    · exact ⟨_, takeFault_faultedAs f w s⟩
    · exact absurd hFaulted (commit_status_ne_faulted hRun e)
    · exact absurd hFaulted (by rw [haltAtSentinel_status]; decide)

/-- Settles O47: each of the three ends of a pass of the loop clears the note that no step has run. -/
theorem loadsAfterAStepAreRefused : Obligations.LoadsAfterAStepAreRefused := by
  intro p s t hRun hStep
  have hCfg := noStepChangesTheConfiguration s t hStep
  obtain ⟨hWf, ⟨hEnd, -⟩ | ⟨-, hCycle⟩⟩ := step_cases hStep
  · exact absurd hRun hEnd
  · have hStale : t.fresh = false := by
      rcases cycle_next hCycle with ⟨f, w, rfl⟩ | ⟨e, rfl⟩ | rfl <;> rfl
    rw [load, hCfg, if_pos hWf, hStale]
    rfl

/-! ### The step over a zero word -/

theorem decode_zero : decode 0#32 = .ok (.sll 0#5 0#5 0#5 0#5) := decode_encode (.sll 0#5 0#5 0#5 0#5)

/-- An aligned pc below STATIC_DATA lies at least a word below the end of memory (R9). -/
theorem pc_add_three_le_endMem {s : State} (hWf : s.cfg.wf = true) (hAl : s.pc.toNat % 4 = 0)
    (hText : s.pc.toNat < s.cfg.staticData) : s.pc.toNat + 3 ≤ s.cfg.endMem := by
  obtain ⟨-, hStaticAl, -, -, -, hStaticLe, hDynamicLe, -⟩ := s.cfg.wf_iff.mp hWf
  omega

/-- A step over a zero word, which is an `sll` into `r0`, commits the effect of nothing. -/
theorem step_zero_word {s : State} (hWf : s.cfg.wf = true) (hRun : s.status = .running) (hAl : s.pc.toNat % 4 = 0)
    (hText : s.pc.toNat < s.cfg.staticData) (hZero : s.mem.readWord s.pc.toNat = 0#32) :
    step s = .next (commit .empty s) := by
  have hFetch := fetch_ok hAl (pc_add_three_le_endMem hWf hAl hText)
  rw [hZero] at hFetch
  rw [step_running hWf hRun, cycle_of_decode_ok hFetch decode_zero]
  rfl

theorem readWord_nil (a : Nat) : Memory.readWord [] a = 0#32 := by
  simp only [Memory.readWord, readByte_nil]
  decide

/-- Settles O51. -/
theorem zeroWordsOnlyAdvanceThePc : Obligations.ZeroWordsOnlyAdvanceThePc := by
  intro s hWf hRun hAl hText hBytes
  have hZero : s.mem.readWord s.pc.toNat = 0#32 := (readWord_congr hBytes).trans (readWord_nil s.pc.toNat)
  exact ⟨_, step_zero_word hWf hRun hAl hText hZero, commit_sameRegs rfl s, commit_sameMemory rfl s,
    commit_goesOnAt .empty s⟩

end Sys2Proof.Machine
end

section
/-! The invariant of every reachable state (`Inv`): it holds at reset, and each of the three ends of a pass of the loop
keeps it. -/

namespace Sys2Proof.Machine

/-! ### Reset -/

theorem inv_resetWith {c : Config} (hWf : c.wf = true) : Inv (State.resetWith c) where
  config := hWf
  memory_canonical := wf_nil
  memory_bounded := nofun
  register_zero := resetWith_getElem_regs c 0
  running_in_text := fun _ => by
    obtain ⟨-, -, -, -, hText, -⟩ := c.wf_iff.mp hWf
    rwa [toNat_resetWith_pc hWf]
  halted_kind := nofun
  no_fault := fun _ => resetWith_fault c
  fault_record := nofun
  fresh_as_reset := fun _ => ⟨resetWith_regs c, resetWith_pc c, resetWith_status c⟩

/-- Settles O42. -/
theorem invariantHoldsAtReset : Obligations.InvariantHoldsAtReset :=
  ⟨inv_resetWith (by decide), fun _ => inv_resetWith⟩

/-! ### The three ends of a pass of the loop -/

/-- The record of a fault taken at `s`, as `takeFault` writes it. -/
def recordOf (f : FaultInfo) (instr : Option Word) (s : State) : FaultRecord := ⟨f.reason, s.pc, instr, f.addr⟩

theorem inv_takeFault {s : State} (h : Inv s) {f : FaultInfo} {instr : Option Word}
    (hLegal : RecordLegal s.cfg (recordOf f instr s)) : Inv (takeFault f instr s) where
  config := h.config
  memory_canonical := h.memory_canonical
  memory_bounded := h.memory_bounded
  register_zero := h.register_zero
  running_in_text := nofun
  halted_kind := nofun
  no_fault := fun hStatus => absurd (takeFault_status f instr s) hStatus
  fault_record := fun _ => ⟨recordOf f instr s, takeFault_fault f instr s, rfl, hLegal⟩
  fresh_as_reset := nofun

theorem inv_haltAtSentinel {s : State} (h : Inv s) (hRun : s.status = .running)
    (hSentinel : s.pc.toNat % 4 = 0 ∧ s.mem.readWord s.pc.toNat = sentinel) : Inv (haltAtSentinel s) where
  config := h.config
  memory_canonical := h.memory_canonical
  memory_bounded := h.memory_bounded
  register_zero := h.register_zero
  running_in_text := nofun
  halted_kind := fun _ => .inr hSentinel
  no_fault := fun _ => h.no_fault (by rw [hRun]; decide)
  fault_record := nofun
  fresh_as_reset := nofun

theorem applyRegWrite_slot_zero (w : Option (RegIdx × Word)) (regs : Vector Word 32) :
    (applyRegWrite w regs)[0] = regs[0] := by
  cases w with
  | none => rfl
  | some write => exact writeReg_slot_zero ..

theorem applyMemWrite_bounded {w : Option Store} {m : Memory} {bound : Nat} (hMem : ∀ cell ∈ m, cell.1 ≤ bound)
    (hWrite : ∀ st, w = some st → st.addr.toNat + st.bytes.length ≤ bound + 1) :
    ∀ cell ∈ applyMemWrite w m, cell.1 ≤ bound := by
  cases w with
  | none => exact hMem
  | some st =>
    intro cell hCell
    have hBound := hWrite st rfl
    rcases mem_writeBytes hCell with ⟨-, hBelow⟩ | hOld
    · omega
    · exact hMem cell hOld

/-- The commit of an effect whose memory write, if it has one, lies within memory. The region check keeps a running pc
in the text. -/
theorem inv_commit {s : State} (h : Inv s) (hRun : s.status = .running) {e : Effect}
    (hWrite : ∀ st, e.memWrite = some st → st.addr.toNat + st.bytes.length ≤ s.cfg.endMem + 1) : Inv (commit e s) where
  config := h.config
  memory_canonical := wf_applyMemWrite e.memWrite h.memory_canonical
  memory_bounded := applyMemWrite_bounded h.memory_bounded hWrite
  register_zero := (applyRegWrite_slot_zero e.regWrite s.regs).trans h.register_zero
  running_in_text := fun hStatus => by
    rcases regionStatus_cases s.cfg (nextPc e.target s.pc) s.status with ⟨-, hHalted⟩ | ⟨hText, -⟩
    · exact absurd (hHalted.symm.trans hStatus) (by decide)
    · exact hText
  halted_kind := fun hStatus => by
    rcases regionStatus_cases s.cfg (nextPc e.target s.pc) s.status with ⟨hPast, -⟩ | ⟨-, hSame⟩
    · exact .inl hPast
    · exact absurd (hRun.symm.trans (hSame.symm.trans hStatus)) (by decide)
  no_fault := fun _ => h.no_fault (by rw [hRun]; decide)
  fault_record := fun hStatus => absurd hStatus (commit_status_ne_faulted hRun e)
  fresh_as_reset := nofun

/-! ### The records are legal (60_exceptions.md R166) -/

/-- An access past END_MEM, aligned for its width, starts past END_MEM, for END_MEM + 1 is a multiple of 4 (R9). -/
theorem endMem_lt_of_aligned_access_past_end {c : Config} (hWf : c.wf = true) {a n : Nat} (hn : n ∈ [1, 2, 4])
    (hAl : a % n = 0) (hPast : c.endMem < a + n - 1) : c.endMem < a := by
  obtain ⟨-, -, -, hEndAl, -⟩ := c.wf_iff.mp hWf
  simp only [List.mem_cons, List.not_mem_nil, or_false] at hn
  rcases hn with rfl | rfl | rfl <;> omega

/-- A fault of the fetch: its address is the pc, and there is no word. -/
theorem recordLegal_of_fetch_error {s : State} (hWf : s.cfg.wf = true) {f : FaultInfo} (h : fetch s = .error f) :
    RecordLegal s.cfg (recordOf f none s) := by
  rcases checkAccess_cases s.cfg s.pc 4 with ⟨hMis, hCheck⟩ | ⟨hAl, hPast, hCheck⟩ | ⟨hAl, hIn, -⟩
  · obtain rfl := Except.error.inj ((fetch_of_checkAccess_error hCheck).symm.trans h)
    exact ⟨s.pc, rfl, hMis, .inl ⟨rfl, rfl⟩⟩
  · obtain rfl := Except.error.inj ((fetch_of_checkAccess_error hCheck).symm.trans h)
    exact ⟨s.pc, rfl, endMem_lt_of_aligned_access_past_end hWf (by decide) hAl hPast, .inl ⟨rfl, rfl⟩⟩
  · rw [fetch_ok hAl (by omega)] at h
    cases h

/-- A fault of an instruction: its word decodes to it, and so to an operation that may raise the reason. -/
theorem recordLegal_of_faultOf {i : Instr} {s : State} (hWf : s.cfg.wf = true) {f : FaultInfo} (h : FaultOf i s f) :
    RecordLegal s.cfg (recordOf f (some (encode i)) s) := by
  obtain ⟨reason, addr⟩ := f
  obtain ⟨hOp, hAddr⟩ := h
  have hRaised : RaisedByWord (recordOf ⟨reason, addr⟩ (some (encode i)) s) := ⟨encode i, i, rfl, decode_encode i, hOp⟩
  cases reason with
  | alignmentError =>
    obtain ⟨a, hSome, hMis⟩ := hAddr
    exact ⟨a, hSome, hMis, .inr hRaised⟩
  | outOfBounds =>
    obtain ⟨a, n, hSome, hn, hAl, hPast⟩ := hAddr
    exact ⟨a, hSome, endMem_lt_of_aligned_access_past_end hWf hn hAl hPast, .inr hRaised⟩
  | arithmeticOverflow => exact ⟨hAddr, hRaised⟩
  | illegalInstruction => exact hAddr.elim

/-! ### Every step -/

/-- A fetched word is the word at an aligned pc. -/
theorem fetch_eq_ok {s : State} {w : Word} (h : fetch s = .ok w) :
    s.pc.toNat % 4 = 0 ∧ s.mem.readWord s.pc.toNat = w := by
  rcases checkAccess_cases s.cfg s.pc 4 with ⟨-, hCheck⟩ | ⟨-, -, hCheck⟩ | ⟨hAl, hIn, -⟩
  · cases (fetch_of_checkAccess_error hCheck).symm.trans h
  · cases (fetch_of_checkAccess_error hCheck).symm.trans h
  · rw [fetch_ok hAl (by omega)] at h
    exact ⟨hAl, Except.ok.inj h⟩

theorem inv_exec {s t : State} (h : Inv s) (hRun : s.status = .running) {w : Word} {i : Instr}
    (hFetch : fetch s = .ok w) (hDecode : decode w = .ok i) (hExec : exec i s = .next t) : Inv t := by
  rcases exec_next hExec with ⟨rfl, rfl⟩ | ⟨e, rfl, he⟩ | ⟨f, rfl, hf⟩
  · obtain ⟨hAl, rfl⟩ := fetch_eq_ok hFetch
    exact inv_haltAtSentinel h hRun ⟨hAl, (encode_of_decode hDecode).symm⟩
  · exact inv_commit h hRun he.memWrite_bounded
  · exact inv_takeFault h (recordLegal_of_faultOf h.config hf)

theorem inv_unmappedWord {s t : State} (h : Inv s) (hRun : s.status = .running) {w : Word} {e : DecodeError}
    (hDecode : decode w = .error e) (hNext : unmappedWord w s = .next t) : Inv t := by
  rcases unmappedWord_cases w s with ⟨hPolicy, hUnmapped⟩ | ⟨-, hUnmapped⟩
  · obtain rfl := Host.Outcome.next.inj (hUnmapped.symm.trans hNext)
    exact inv_takeFault h ⟨rfl, hPolicy, w, e, rfl, hDecode⟩
  · obtain rfl := Host.Outcome.next.inj (hUnmapped.symm.trans hNext)
    exact inv_commit h hRun nofun

/-- Settles O43: a terminal state stays as it is, and a running engine makes one pass of the loop. -/
theorem everyStepKeepsTheInvariant : Obligations.EveryStepKeepsTheInvariant := by
  intro s t h hStep
  obtain ⟨-, ⟨-, rfl⟩ | ⟨hRun, hNext⟩⟩ := step_cases hStep
  · exact h
  · rcases cycle_cases s with ⟨f, hFetch, hCycle⟩ | ⟨w, i, hFetch, hDecode, hCycle⟩ | ⟨w, e, -, hDecode, hCycle⟩ <;>
      rw [hCycle] at hNext
    · obtain rfl := Host.Outcome.next.inj hNext
      exact inv_takeFault h (recordLegal_of_fetch_error h.config hFetch)
    · exact inv_exec h hRun hFetch hDecode hNext
    · exact inv_unmappedWord h hRun hDecode hNext

/-- Settles O44: a running pc is in the text, which ends within memory. -/
theorem runningFetchesStayInMemory : Obligations.RunningFetchesStayInMemory := by
  intro s h hRun hAl
  exact ⟨_, fetch_ok hAl (pc_add_three_le_endMem h.config hAl (h.running_in_text hRun))⟩

end Sys2Proof.Machine
end

section
/-! Runs (40_fetch_loop.md R107, R108; 70_reset_and_hazards.md R193): a run that has ended ignores more fuel, and a
machine with no program runs through its text and halts at STATIC_DATA. -/

namespace Sys2Proof.Machine

/-! ### Fuel -/

/-- A run from a terminal state reports that state, whatever the fuel. -/
theorem hostRun_terminal {s : State} (h : s.status ≠ .running) (fuel : Nat) : hostRun fuel s = withReport s := by
  cases fuel with
  | zero => rfl
  | succ fuel =>
    rw [hostRun]
    cases hStatus : s.status with
    | running => exact absurd hStatus h
    | halted => rfl
    | faulted => rfl

/-- A run of a running engine takes a step and goes on with one unit of fuel less. -/
theorem hostRun_succ {s t : State} (hRun : s.status = .running) (hStep : step s = .next t) (fuel : Nat) :
    hostRun (fuel + 1) s = hostRun fuel t := by
  rw [hostRun, hRun, hStep]

/-- A run from a running engine that answers an outcome has taken a step that answers a next state. -/
theorem step_next_of_hostRun_succ {s : State} {fuel : Nat} {x : StepOutcome × State} (hRun : s.status = .running)
    (h : hostRun (fuel + 1) s = .next x) : ∃ t, step s = .next t := by
  rw [hostRun, hRun] at h
  cases hStep : step s with
  | next t => exact ⟨t, rfl⟩
  | fault r => rw [hStep] at h; cases h
  | refused r => rw [hStep] at h; cases h

theorem withReport_running {s : State} (h : s.status = .running) : withReport s = .next (.running, s) := by
  rw [withReport, reportOf, h]

theorem withReport_halted {s : State} (h : s.status = .halted) : withReport s = .next (.halted, s) := by
  rw [withReport, reportOf, h]

/-- Settles O49: a run that answers another outcome than Running has reached a terminal state before its fuel ran
out. -/
theorem endedRunsIgnoreMoreFuel : Obligations.EndedRunsIgnoreMoreFuel := by
  intro n k s t o h ho
  induction n generalizing s with
  | zero =>
    by_cases hRun : s.status = .running
    · have hReport : hostRun 0 s = .next (.running, s) := withReport_running hRun
      rw [hReport] at h
      cases h
      exact absurd rfl ho
    · rw [hostRun_terminal hRun] at h ⊢
      exact h
  | succ n ih =>
    by_cases hRun : s.status = .running
    · obtain ⟨u, hStep⟩ := step_next_of_hostRun_succ hRun h
      rw [hostRun_succ hRun hStep] at h
      rw [Nat.add_right_comm, hostRun_succ hRun hStep]
      exact ih u h
    · rw [hostRun_terminal hRun] at h ⊢
      exact h

/-! ### The machine with no program (R193) -/

/-- The machine of `c` with no program and its pc at `a`, everything else but status and `fresh` as reset left it. -/
def emptyAt (c : Config) (a : Nat) (fresh : Bool) : State :=
  { State.resetWith c with
    pc := BitVec.ofNat 32 a
    status := if c.staticData ≤ a then .halted else .running
    fresh := fresh }

theorem resetWith_eq_emptyAt {c : Config} (hWf : c.wf = true) : State.resetWith c = emptyAt c c.pcStart true := by
  obtain ⟨-, -, -, -, hText, -⟩ := c.wf_iff.mp hWf
  rw [emptyAt, if_neg (Nat.not_le.mpr hText)]
  rfl

section Text

variable {c : Config} {a : Nat}

theorem emptyAt_status_running (h : a < c.staticData) (fresh : Bool) : (emptyAt c a fresh).status = .running :=
  if_neg (Nat.not_le.mpr h)

theorem emptyAt_status_halted (c : Config) (fresh : Bool) : (emptyAt c c.staticData fresh).status = .halted :=
  if_pos (Nat.le_refl c.staticData)

/-- An address up to STATIC_DATA fits in a word (R9). -/
theorem toNat_emptyAt_pc (hWf : c.wf = true) (h : a ≤ c.staticData) (fresh : Bool) :
    (emptyAt c a fresh).pc.toNat = a := by
  obtain ⟨-, -, -, -, -, hStatic, hDynamic, hEnd⟩ := c.wf_iff.mp hWf
  have hWord : a < 2 ^ 32 := by omega
  exact (BitVec.toNat_ofNat ..).trans (Nat.mod_eq_of_lt hWord)

/-- The commit of the effect of nothing, over the empty machine: the pc advances, and the region check halts it at
STATIC_DATA. -/
theorem commit_empty_emptyAt (hWf : c.wf = true) (hNext : a + 4 ≤ c.staticData) (fresh : Bool) :
    commit .empty (emptyAt c a fresh) = emptyAt c (a + 4) false := by
  have hPc : (emptyAt c a fresh).pc + 4#32 = BitVec.ofNat 32 (a + 4) := (BitVec.ofNat_add a 4).symm
  have hNat : (BitVec.ofNat 32 (a + 4)).toNat = a + 4 := toNat_emptyAt_pc hWf hNext false
  have hStatus : regionStatus c (BitVec.ofNat 32 (a + 4)) (emptyAt c a fresh).status =
      (emptyAt c (a + 4) false).status := by
    rw [emptyAt_status_running (by omega), regionStatus, hNat]
    rfl
  calc commit .empty (emptyAt c a fresh)
      = { emptyAt c a fresh with
          pc := (emptyAt c a fresh).pc + 4#32
          status := regionStatus c ((emptyAt c a fresh).pc + 4#32) (emptyAt c a fresh).status
          fresh := false } := rfl
    _ = emptyAt c (a + 4) false := by rw [hPc, hStatus]; rfl

/-- A step in the text of the empty machine runs a zero word. -/
theorem step_emptyAt (hWf : c.wf = true) (hAl : a % 4 = 0) (hText : a < c.staticData) (fresh : Bool) :
    step (emptyAt c a fresh) = .next (emptyAt c (a + 4) false) := by
  have hPc := toNat_emptyAt_pc hWf (Nat.le_of_lt hText) fresh
  obtain ⟨-, hStaticAl, -⟩ := c.wf_iff.mp hWf
  rw [← commit_empty_emptyAt hWf (by omega) fresh]
  exact step_zero_word hWf (emptyAt_status_running hText fresh) (hPc.symm ▸ hAl) (hPc.symm ▸ hText)
    (readWord_nil (emptyAt c a fresh).pc.toNat)

/-- A run of `k` steps that stays in the text or reaches its end. -/
theorem hostRun_emptyAt (hWf : c.wf = true) (hAl : a % 4 = 0) (k : Nat) (hText : a + 4 * k ≤ c.staticData)
    (fresh : Bool) :
    hostRun k (emptyAt c a fresh) = withReport (emptyAt c (a + 4 * k) (fresh && k == 0)) := by
  induction k generalizing a fresh with
  | zero =>
    have hFresh : (fresh && 0 == 0) = fresh := Bool.and_true fresh
    rw [hFresh]
    rfl
  | succ k ih =>
    have hHere : a < c.staticData := by omega
    rw [hostRun_succ (emptyAt_status_running hHere fresh) (step_emptyAt hWf hAl hHere fresh),
      ih (by omega) (by omega)]
    have hAddr : a + 4 + 4 * k = a + 4 * (k + 1) := by omega
    simp [hAddr]

end Text

/-- Settles O48: before STATIC_DATA the run reports Running, and at STATIC_DATA it reports the halt. -/
theorem emptyMachineHaltsAtStaticData : Obligations.EmptyMachineHaltsAtStaticData := by
  intro c hWf
  obtain ⟨hPcAl, hStaticAl, -, -, hText, -⟩ := c.wf_iff.mp hWf
  rw [resetWith_eq_emptyAt hWf]
  refine ⟨fun k hk => ?before, ?atEnd⟩
  case before =>
    rw [hostRun_emptyAt hWf hPcAl k (by omega)]
    exact ⟨_, withReport_running (emptyAt_status_running (by omega) _)⟩
  case atEnd =>
    have hEnd : c.pcStart + 4 * ((c.staticData - c.pcStart) / 4) = c.staticData := by omega
    have hSteps : ((c.staticData - c.pcStart) / 4 == 0) = false := beq_false_of_ne (by omega)
    rw [hostRun_emptyAt hWf hPcAl _ (by omega), hEnd, hSteps, withReport_halted (emptyAt_status_halted c _), emptyAt,
      if_pos (Nat.le_refl c.staticData)]
    rfl

end Sys2Proof.Machine
end
